-- ==== Sys2Proof/Word.lean ====
section
/-! DEFINITION. The value types of the block: bytes, 16-bit words, 12-bit addresses, register and key
numbers (00_scope.md R7, R9, R10). -/

namespace Sys2Proof

/-- An 8-bit unsigned value: a V register, a timer, a memory cell, the immediate nn (R7). -/
abbrev Byte := BitVec 8

/-- A 16-bit unsigned value: an instruction word, pc, I, a stack slot (R7). -/
abbrev Word := BitVec 16

/-- The 12-bit address immediate nnn (R91). -/
abbrev Addr12 := BitVec 12

/-- The index of a general register, V0..VF (R21). -/
abbrev Reg := Fin 16

/-- The number of a key, 0x0..0xF (R30). -/
abbrev Key := Fin 16

/-- The size of memory in bytes (R7, R60). -/
abbrev memSize : Nat := 4096

/-- The size of the font table in bytes; the font occupies addresses below it (R7, R37). -/
abbrev fontSize : Nat := 80

/-- The program load address and the reset value of pc (R7, R61). -/
abbrev loadAddress : Nat := 0x200

/-- The greatest length of a ROM (R7): 4096 - 0x200. -/
abbrev maxRomLength : Nat := 3584

end Sys2Proof
end

