-- ==== Sys2Proof/Config.lean ====
section
/-! DEFINITION. What the spec leaves open: the two parameters of 00_scope.md R8 with the spec's defaults,
and the free values. The parameters are carried in `State` (see assumption 1), so that a statement about
every state is a statement about every value of them; the free values have no body. -/

namespace Sys2Proof

/-- The model parameters of 00_scope.md R8 that are fixed for a machine. -/
structure Params where
  /-- P_FONT, the 80 font bytes (R37). -/
  font : Vector Byte fontSize
  /-- P_LOOSE_SKIP_DECODE: whether 5xyN and 9xyN with N ≠ 0 decode as the skips (R99). -/
  looseSkipDecode : Bool
  deriving DecidableEq, Repr

/-- The default font table of 10_state.md R37, glyphs 0 to 7.
PRESUMED (assumption 2): the spec itself takes these bytes from general knowledge. -/
def Config.defaultGlyphsLow : List (List Byte) :=
  [[0xF0, 0x90, 0x90, 0x90, 0xF0],
   [0x20, 0x60, 0x20, 0x20, 0x70],
   [0xF0, 0x10, 0xF0, 0x80, 0xF0],
   [0xF0, 0x10, 0xF0, 0x10, 0xF0],
   [0x90, 0x90, 0xF0, 0x10, 0x10],
   [0xF0, 0x80, 0xF0, 0x10, 0xF0],
   [0xF0, 0x80, 0xF0, 0x90, 0xF0],
   [0xF0, 0x10, 0x20, 0x40, 0x40]]

/-- The default font table of 10_state.md R37, glyphs 8 to F. PRESUMED (assumption 2). -/
def Config.defaultGlyphsHigh : List (List Byte) :=
  [[0xF0, 0x90, 0xF0, 0x90, 0xF0],
   [0xF0, 0x90, 0xF0, 0x10, 0xF0],
   [0xF0, 0x90, 0xF0, 0x90, 0x90],
   [0xE0, 0x90, 0xE0, 0x90, 0xE0],
   [0xF0, 0x80, 0x80, 0x80, 0xF0],
   [0xE0, 0x90, 0x90, 0x90, 0xE0],
   [0xF0, 0x80, 0xF0, 0x80, 0xF0],
   [0xF0, 0x80, 0xF0, 0x80, 0x80]]

/-- The default of P_FONT (R37): glyph g occupies bytes [5g, 5g+5). -/
def Config.defaultFont : Vector Byte fontSize :=
  ⟨(Config.defaultGlyphsLow ++ Config.defaultGlyphsHigh).flatten.toArray, rfl⟩

/-- The spec's default parameters: the table of R37, and strict decoding (R99). -/
def Params.default : Params := ⟨Config.defaultFont, false⟩

/-- FREE VALUE (assumption 4): the byte on the block's random input at the n-th draw of a run
(10_state.md R44, 42_alu.md R185). No body: every byte is admitted. -/
opaque Config.randomByte : Nat → Byte

/-- FREE VALUE (assumption 5): which of the held keys Fx0A stores at the n-th draw of a run
(45_keypad_timers.md R265), as a number that is reduced modulo how many keys are held. No body. -/
opaque Config.keyChoice : Nat → Nat

end Sys2Proof
end

