-- ==== Sys2Proof/Syntax.lean ====
section
/-! DEFINITION. The 34 instructions of 30_encoding.md R95, one constructor per row of
spec/opcode_table.json, in the table's order. Every field has exactly the range its encoding gives it. -/

namespace Sys2Proof

/-- An instruction (R95). x and y are register indices, nn a byte, nnn a 12-bit address and n a row
count 0..15 (R93). -/
inductive Instr where
  /-- 00E0 CLS. -/
  | cls
  /-- 00EE RET. -/
  | ret
  /-- 1nnn JP nnn. -/
  | jp (nnn : Addr12)
  /-- 2nnn CALL nnn. -/
  | call (nnn : Addr12)
  /-- 3xnn SE Vx, nn. -/
  | seImm (x : Reg) (nn : Byte)
  /-- 4xnn SNE Vx, nn. -/
  | sneImm (x : Reg) (nn : Byte)
  /-- 5xy0 SE Vx, Vy. -/
  | seReg (x y : Reg)
  /-- 6xnn LD Vx, nn. -/
  | ldImm (x : Reg) (nn : Byte)
  /-- 7xnn ADD Vx, nn. -/
  | addImm (x : Reg) (nn : Byte)
  /-- 8xy0 LD Vx, Vy. -/
  | ldReg (x y : Reg)
  /-- 8xy1 OR Vx, Vy. -/
  | orReg (x y : Reg)
  /-- 8xy2 AND Vx, Vy. -/
  | andReg (x y : Reg)
  /-- 8xy3 XOR Vx, Vy. -/
  | xorReg (x y : Reg)
  /-- 8xy4 ADD Vx, Vy. -/
  | addReg (x y : Reg)
  /-- 8xy5 SUB Vx, Vy. -/
  | sub (x y : Reg)
  /-- 8xy6 SHR Vx, Vy; y is encoded but not read (R181). -/
  | shr (x y : Reg)
  /-- 8xy7 SUBN Vx, Vy. -/
  | subn (x y : Reg)
  /-- 8xyE SHL Vx, Vy; y is encoded but not read (R183). -/
  | shl (x y : Reg)
  /-- 9xy0 SNE Vx, Vy. -/
  | sneReg (x y : Reg)
  /-- Annn LD I, nnn. -/
  | ldI (nnn : Addr12)
  /-- Bnnn JP V0, nnn. -/
  | jpV0 (nnn : Addr12)
  /-- Cxnn RND Vx, nn. -/
  | rnd (x : Reg) (nn : Byte)
  /-- Dxyn DRW Vx, Vy, n. -/
  | drw (x y : Reg) (n : Fin 16)
  /-- Ex9E SKP Vx. -/
  | skp (x : Reg)
  /-- ExA1 SKNP Vx. -/
  | sknp (x : Reg)
  /-- Fx07 LD Vx, DT. -/
  | ldVxDt (x : Reg)
  /-- Fx0A LD Vx, K. -/
  | ldVxK (x : Reg)
  /-- Fx15 LD DT, Vx. -/
  | ldDtVx (x : Reg)
  /-- Fx18 LD ST, Vx. -/
  | ldStVx (x : Reg)
  /-- Fx1E ADD I, Vx. -/
  | addIVx (x : Reg)
  /-- Fx29 LD F, Vx. -/
  | ldFVx (x : Reg)
  /-- Fx33 LD B, Vx. -/
  | ldBVx (x : Reg)
  /-- Fx55 LD [I], Vx. -/
  | ldMemVx (x : Reg)
  /-- Fx65 LD Vx, [I]. -/
  | ldVxMem (x : Reg)
  deriving DecidableEq, Repr

end Sys2Proof
end

