-- ==== Sys2Proof/WellFormed.lean ====
section
/-! DEFINITION. Well-formedness. An `Instr` term carries its bounds in its types (a register index is a
`Fin 16`, nn 8 bits, nnn 12 bits, n a `Fin 16`), as 30_encoding.md R93 says "no bounds errors arise from
decoding itself"; so the check on instructions admits every term. The one check that can refuse is the ROM's. -/

namespace Sys2Proof

/-- Every instruction term is well formed: no field can leave its encoding's range (R93, R97). -/
def Instr.wellFormed : Instr → Bool
  | .cls | .ret | .jp _ | .call _ | .seImm _ _ | .sneImm _ _ | .seReg _ _ | .ldImm _ _ | .addImm _ _
  | .ldReg _ _ | .orReg _ _ | .andReg _ _ | .xorReg _ _ | .addReg _ _ | .sub _ _ | .shr _ _ | .subn _ _
  | .shl _ _ | .sneReg _ _ | .ldI _ | .jpV0 _ | .rnd _ _ | .drw _ _ _ | .skp _ | .sknp _ | .ldVxDt _
  | .ldVxK _ | .ldDtVx _ | .ldStVx _ | .addIVx _ | .ldFVx _ | .ldBVx _ | .ldMemVx _ | .ldVxMem _ => true

/-- A ROM image fits when it is at most 3584 bytes long (40_cycle.md R132). -/
def romFits (rom : List Byte) : Bool := decide (rom.length ≤ maxRomLength)

end Sys2Proof
end

