-- ==== Sys2Proof/Decode.lean ====
section
/-! DEFINITION. The decoder of 30_encoding.md R91 to R99, total on every word, the encoder written from the
same table R95, and the opcode map itself. -/

namespace Sys2Proof

/-! ### The six fields of a word (R91) -/

/-- group: w[15:12]. -/
def groupOf (w : Word) : Nat := (w.extractLsb' 12 4).toNat

/-- x: w[11:8], a register index. -/
def xOf (w : Word) : Reg := (w.extractLsb' 8 4).toFin

/-- y: w[7:4], a register index. -/
def yOf (w : Word) : Reg := (w.extractLsb' 4 4).toFin

/-- n: w[3:0], a 4-bit immediate. -/
def nOf (w : Word) : Fin 16 := (w.extractLsb' 0 4).toFin

/-- nn: w[7:0], an 8-bit immediate. -/
def nnOf (w : Word) : Byte := w.extractLsb' 0 8

/-- nnn: w[11:0], a 12-bit address. -/
def nnnOf (w : Word) : Addr12 := w.extractLsb' 0 12

/-! ### Decoding a word (R94) -/

/-- What a word decodes to: one of the 34 instructions, or an unknown opcode that names its word (R96). -/
inductive Decoded where
  | instr (i : Instr)
  | unknown (w : Word)
  deriving DecidableEq, Repr

/-- Group 8: n is the sub-selector (R94). -/
def decodeGroup8 (w : Word) : Decoded :=
  match (nOf w).val with
  | 0x0 => .instr (.ldReg (xOf w) (yOf w))
  | 0x1 => .instr (.orReg (xOf w) (yOf w))
  | 0x2 => .instr (.andReg (xOf w) (yOf w))
  | 0x3 => .instr (.xorReg (xOf w) (yOf w))
  | 0x4 => .instr (.addReg (xOf w) (yOf w))
  | 0x5 => .instr (.sub (xOf w) (yOf w))
  | 0x6 => .instr (.shr (xOf w) (yOf w))
  | 0x7 => .instr (.subn (xOf w) (yOf w))
  | 0xE => .instr (.shl (xOf w) (yOf w))
  | _ => .unknown w

/-- Group E: nn is the sub-selector (R94). -/
def decodeGroupE (w : Word) : Decoded :=
  match (nnOf w).toNat with
  | 0x9E => .instr (.skp (xOf w))
  | 0xA1 => .instr (.sknp (xOf w))
  | _ => .unknown w

/-- Group F: nn is the sub-selector (R94). -/
def decodeGroupF (w : Word) : Decoded :=
  match (nnOf w).toNat with
  | 0x07 => .instr (.ldVxDt (xOf w))
  | 0x0A => .instr (.ldVxK (xOf w))
  | 0x15 => .instr (.ldDtVx (xOf w))
  | 0x18 => .instr (.ldStVx (xOf w))
  | 0x1E => .instr (.addIVx (xOf w))
  | 0x29 => .instr (.ldFVx (xOf w))
  | 0x33 => .instr (.ldBVx (xOf w))
  | 0x55 => .instr (.ldMemVx (xOf w))
  | 0x65 => .instr (.ldVxMem (xOf w))
  | _ => .unknown w

/-- `decode` of R94. `loose` is P_LOOSE_SKIP_DECODE (R99). Group 0 matches the whole word (assumption 18). -/
def decode (loose : Bool) (w : Word) : Decoded :=
  match groupOf w with
  | 0x0 => if w = 0x00E0 then .instr .cls else if w = 0x00EE then .instr .ret else .unknown w
  | 0x1 => .instr (.jp (nnnOf w))
  | 0x2 => .instr (.call (nnnOf w))
  | 0x3 => .instr (.seImm (xOf w) (nnOf w))
  | 0x4 => .instr (.sneImm (xOf w) (nnOf w))
  | 0x5 => if (nOf w).val = 0 ∨ loose = true then .instr (.seReg (xOf w) (yOf w)) else .unknown w
  | 0x6 => .instr (.ldImm (xOf w) (nnOf w))
  | 0x7 => .instr (.addImm (xOf w) (nnOf w))
  | 0x8 => decodeGroup8 w
  | 0x9 => if (nOf w).val = 0 ∨ loose = true then .instr (.sneReg (xOf w) (yOf w)) else .unknown w
  | 0xA => .instr (.ldI (nnnOf w))
  | 0xB => .instr (.jpV0 (nnnOf w))
  | 0xC => .instr (.rnd (xOf w) (nnOf w))
  | 0xD => .instr (.drw (xOf w) (yOf w) (nOf w))
  | 0xE => decodeGroupE w
  | 0xF => decodeGroupF w
  | _ => .unknown w

/-! ### Decoding bytes (R62, R90) -/

/-- The word at two consecutive bytes, high byte first (R62). -/
def wordOfBytes (hi lo : Byte) : Word := hi ++ lo

/-- The byte of a word that lies at the lower address (R62). -/
def highByte (w : Word) : Byte := w.extractLsb' 8 8

/-- The byte of a word that lies at the higher address (R62). -/
def lowByte (w : Word) : Byte := w.extractLsb' 0 8

/-- What a byte sequence decodes to: an instruction and the rest, an unknown opcode and the rest, or fewer
than the two bytes every instruction takes (R90). -/
inductive BytesDecoded where
  | instr (i : Instr) (rest : List Byte)
  | unknown (w : Word) (rest : List Byte)
  | truncated
  deriving DecidableEq, Repr

/-- Decode the instruction at the head of a byte sequence. -/
def decodeBytes (loose : Bool) : List Byte → BytesDecoded
  | hi :: lo :: rest =>
    match decode loose (wordOfBytes hi lo) with
    | .instr i => .instr i rest
    | .unknown w => .unknown w rest
  | _ => .truncated

/-! ### Encoding (R92, R95) -/

/-- A register index as its four bits. -/
def regBits (r : Reg) : BitVec 4 := BitVec.ofFin r

/-- Format F_XY, and F_XYN with n in the last place (R92). -/
def wordXYN (g : BitVec 4) (x y : Reg) (n : BitVec 4) : Word := g ++ regBits x ++ regBits y ++ n

/-- Formats F_XNN and F_X (R92). -/
def wordXNN (g : BitVec 4) (x : Reg) (nn : Byte) : Word := g ++ regBits x ++ nn

/-- Format F_NNN (R92). -/
def wordNNN (g : BitVec 4) (nnn : Addr12) : Word := g ++ nnn

/-- The word of an instruction, row by row of R95. -/
def encode : Instr → Word
  | .cls => 0x00E0
  | .ret => 0x00EE
  | .jp nnn => wordNNN 0x1 nnn
  | .call nnn => wordNNN 0x2 nnn
  | .seImm x nn => wordXNN 0x3 x nn
  | .sneImm x nn => wordXNN 0x4 x nn
  | .seReg x y => wordXYN 0x5 x y 0x0
  | .ldImm x nn => wordXNN 0x6 x nn
  | .addImm x nn => wordXNN 0x7 x nn
  | .ldReg x y => wordXYN 0x8 x y 0x0
  | .orReg x y => wordXYN 0x8 x y 0x1
  | .andReg x y => wordXYN 0x8 x y 0x2
  | .xorReg x y => wordXYN 0x8 x y 0x3
  | .addReg x y => wordXYN 0x8 x y 0x4
  | .sub x y => wordXYN 0x8 x y 0x5
  | .shr x y => wordXYN 0x8 x y 0x6
  | .subn x y => wordXYN 0x8 x y 0x7
  | .shl x y => wordXYN 0x8 x y 0xE
  | .sneReg x y => wordXYN 0x9 x y 0x0
  | .ldI nnn => wordNNN 0xA nnn
  | .jpV0 nnn => wordNNN 0xB nnn
  | .rnd x nn => wordXNN 0xC x nn
  | .drw x y n => wordXYN 0xD x y (regBits n)
  | .skp x => wordXNN 0xE x 0x9E
  | .sknp x => wordXNN 0xE x 0xA1
  | .ldVxDt x => wordXNN 0xF x 0x07
  | .ldVxK x => wordXNN 0xF x 0x0A
  | .ldDtVx x => wordXNN 0xF x 0x15
  | .ldStVx x => wordXNN 0xF x 0x18
  | .addIVx x => wordXNN 0xF x 0x1E
  | .ldFVx x => wordXNN 0xF x 0x29
  | .ldBVx x => wordXNN 0xF x 0x33
  | .ldMemVx x => wordXNN 0xF x 0x55
  | .ldVxMem x => wordXNN 0xF x 0x65

/-- The two bytes of an instruction as memory holds them, high byte first (R62). -/
def encodeBytes (i : Instr) : List Byte := [highByte (encode i), lowByte (encode i)]

/-! ### The opcode map (R95) -/

/-- One row's mask and match: the row selects w when `w &&& mask = pattern` (R95). -/
structure OpcodeRow where
  mask : Word
  pattern : Word
  deriving DecidableEq, Repr

/-- Whether a row matches a word. -/
def OpcodeRow.selects (r : OpcodeRow) (w : Word) : Bool := w &&& r.mask == r.pattern

/-- The row of R95 an instruction belongs to. With P_LOOSE_SKIP_DECODE true rows 7 and 19 take mask 0xF000 (R99). -/
def Instr.row (loose : Bool) : Instr → OpcodeRow
  | .cls => ⟨0xFFFF, 0x00E0⟩
  | .ret => ⟨0xFFFF, 0x00EE⟩
  | .jp _ => ⟨0xF000, 0x1000⟩
  | .call _ => ⟨0xF000, 0x2000⟩
  | .seImm _ _ => ⟨0xF000, 0x3000⟩
  | .sneImm _ _ => ⟨0xF000, 0x4000⟩
  | .seReg _ _ => ⟨if loose then 0xF000 else 0xF00F, 0x5000⟩
  | .ldImm _ _ => ⟨0xF000, 0x6000⟩
  | .addImm _ _ => ⟨0xF000, 0x7000⟩
  | .ldReg _ _ => ⟨0xF00F, 0x8000⟩
  | .orReg _ _ => ⟨0xF00F, 0x8001⟩
  | .andReg _ _ => ⟨0xF00F, 0x8002⟩
  | .xorReg _ _ => ⟨0xF00F, 0x8003⟩
  | .addReg _ _ => ⟨0xF00F, 0x8004⟩
  | .sub _ _ => ⟨0xF00F, 0x8005⟩
  | .shr _ _ => ⟨0xF00F, 0x8006⟩
  | .subn _ _ => ⟨0xF00F, 0x8007⟩
  | .shl _ _ => ⟨0xF00F, 0x800E⟩
  | .sneReg _ _ => ⟨if loose then 0xF000 else 0xF00F, 0x9000⟩
  | .ldI _ => ⟨0xF000, 0xA000⟩
  | .jpV0 _ => ⟨0xF000, 0xB000⟩
  | .rnd _ _ => ⟨0xF000, 0xC000⟩
  | .drw _ _ _ => ⟨0xF000, 0xD000⟩
  | .skp _ => ⟨0xF0FF, 0xE09E⟩
  | .sknp _ => ⟨0xF0FF, 0xE0A1⟩
  | .ldVxDt _ => ⟨0xF0FF, 0xF007⟩
  | .ldVxK _ => ⟨0xF0FF, 0xF00A⟩
  | .ldDtVx _ => ⟨0xF0FF, 0xF015⟩
  | .ldStVx _ => ⟨0xF0FF, 0xF018⟩
  | .addIVx _ => ⟨0xF0FF, 0xF01E⟩
  | .ldFVx _ => ⟨0xF0FF, 0xF029⟩
  | .ldBVx _ => ⟨0xF0FF, 0xF033⟩
  | .ldMemVx _ => ⟨0xF0FF, 0xF055⟩
  | .ldVxMem _ => ⟨0xF0FF, 0xF065⟩

/-- One instruction of each row, in the table's order. -/
def rowSamples : List Instr :=
  [.cls, .ret, .jp 0, .call 0, .seImm 0 0, .sneImm 0 0, .seReg 0 0, .ldImm 0 0, .addImm 0 0, .ldReg 0 0,
   .orReg 0 0, .andReg 0 0, .xorReg 0 0, .addReg 0 0, .sub 0 0, .shr 0 0, .subn 0 0, .shl 0 0, .sneReg 0 0, .ldI 0, .jpV0 0, .rnd 0 0, .drw 0 0 0, .skp 0, .sknp 0, .ldVxDt 0, .ldVxK 0,
   .ldDtVx 0, .ldStVx 0, .addIVx 0, .ldFVx 0, .ldBVx 0, .ldMemVx 0, .ldVxMem 0]

/-- The complete opcode map of R95 (34 rows). -/
def opcodeMap (loose : Bool) : List OpcodeRow := rowSamples.map (Instr.row loose)

/-! ### The host's question about one opcode-table word -/

/-- The bytes of a table word as the hardware stores them: one 16-bit word, high byte first (R62, R90). -/
def tableBytes (nbits w : Nat) : List Byte :=
  let word : Word := BitVec.ofNat 16 (w % 2 ^ nbits)
  [highByte word, lowByte word]

/-- The instruction the decoder reads from a table word, under the spec's default parameters (R99). -/
def decodeTableWord (nbits w : Nat) : Option Instr :=
  match decodeBytes Params.default.looseSkipDecode (tableBytes nbits w) with
  | .instr i _ => some i
  | .unknown _ _ => none
  | .truncated => none

end Sys2Proof
end

