-- ==== Sys2Proof/Machine/State.lean ====
section
/-! DEFINITION. The state of the block (10_state.md R20), the kinds of MachineFault (60_exceptions.md R301),
the refusals, and the state after reset (R38, R330). -/

namespace Sys2Proof.Machine

/-- Memory: the cells that differ from what an unlisted address reads as, by strictly rising address
(assumption 9; `Memory.wf` in Machine/Ops.lean). -/
abbrev Memory := List Host.Cell

/-- The display: 32 rows of 64 pixels, true meaning on (R31; assumption 25). -/
abbrev Display := Vector (Vector Bool 64) 32

/-- The whole state: the tuple of R20, and after it the model's own fields `params` and `draws`. -/
structure State where
  /-- MEM: 4096 bytes (R32). -/
  mem : Memory
  /-- program_counter (R25). -/
  pc : Word
  /-- V0..VF (R21); VF is also the flag register (R23). -/
  v : Vector Byte 16
  /-- I, the index register (R27). -/
  idx : Word
  /-- STACK, 16 slots (R28). -/
  stack : Vector Word 16
  /-- SP, the count of occupied slots, 0..16 (R28). -/
  sp : Fin 17
  /-- KEY, true meaning held (R30). -/
  keys : Vector Bool 16
  /-- DISP (R31). -/
  disp : Display
  /-- DT, the delay timer (R29). -/
  dt : Byte
  /-- ST, the sound timer (R29). -/
  st : Byte
  /-- The parameters of 00_scope.md R8: the model's own field, which nothing changes (assumption 1). -/
  params : Params
  /-- How many free values the run has consumed: the model's own field (assumption 6). -/
  draws : Nat
  deriving DecidableEq, Repr

/-- The kinds of MachineFault (R301). Each is safe: the step keeps no change and the run ends (R302, R303), where
the reference's behaviour is unknown. -/
inductive Fault where
  /-- 0x10, raised by CALL when SP = 16 (R145). Safe: the reference leaves it undefined (D2). -/
  | stackOverflow
  /-- 0x11, raised by RET when SP = 0 (R146). Safe (D3). -/
  | stackUnderflow
  /-- 0x12, raised by DRW, LD_B_VX, LD_MEM_VX and LD_VX_MEM when an accessed I + off > 0xFFF (R64). Safe (D5). -/
  | memoryOutOfRange
  /-- 0x13, raised by the fetch when pc > 0xFFE (R65). Safe (D6). -/
  | fetchOutOfRange
  /-- 0x14, raised by LD_B_VX and LD_MEM_VX when a written address is at or below 0x04F (R66). Safe (D8). -/
  | fontWrite
  /-- 0x15, raised by SKP and SKNP when V[x] > 0xF (R262). Safe (D11). -/
  | keyOutOfRange
  deriving DecidableEq, Repr

/-- Reasons an instruction has no meaning. No arm of `exec` uses one: every instruction is modelled. -/
inductive Refusal where
  /-- Raised by an arm of `exec` whose instruction has no meaning yet; none is left. Safe. -/
  | notModelled (mnemonic : String)
  deriving DecidableEq, Repr

/-- The state after reset under given parameters (R38, R330). Memory lists nothing: an unlisted address reads as its
reset contents, the font below 0x050 and 0 above. `draws` is 0 by DESIGN CHOICE (assumption 6). -/
def State.resetWith (p : Params) : State where
  mem := []
  pc := 0x200
  v := Vector.replicate 16 0
  idx := 0
  stack := Vector.replicate 16 0
  sp := 0
  keys := Vector.replicate 16 false
  disp := Vector.replicate 32 (Vector.replicate 64 false)
  dt := 0
  st := 0
  params := p
  draws := 0

/-- The state after reset, under the spec's default parameters (assumptions 2, 3). -/
def State.reset : State := State.resetWith Params.default

end Sys2Proof.Machine
end

