-- ==== Sys2Proof/Machine/Ops.lean ====
section
/-! DEFINITION. The named operations over memory, registers, stack, display and keypad; the fetch; and the
one way an instruction raises a MachineFault (00_scope.md R11, R12; 20_memory.md; 41_control_flow.md R140,
R145, R146; 45_keypad_timers.md R265). -/

namespace Sys2Proof.Machine

/-! ### Memory as cells (R60, R69) -/

/-- What an unlisted address reads as: the reset contents (R38), P_FONT below 0x050 and 0 above. -/
def Memory.unlisted (p : Params) (a : Nat) : Byte := if h : a < fontSize then p.font[a] else 0

/-- MEM[a]. -/
def Memory.read (p : Params) : Memory → Nat → Byte
  | [], a => Memory.unlisted p a
  | (k, b) :: m, a => if k = a then b else Memory.read p m a

/-- Take address a off the list. -/
def Memory.erase (a : Nat) : Memory → Memory
  | [] => []
  | (k, b) :: m => if k = a then Memory.erase a m else (k, b) :: Memory.erase a m

/-- List address a with byte v, in address order. -/
def Memory.insert (a : Nat) (v : Byte) : Memory → Memory
  | [] => [(a, v)]
  | (k, b) :: m =>
    if a < k then (a, v) :: (k, b) :: m
    else if a = k then (a, v) :: m
    else (k, b) :: Memory.insert a v m

/-- MEM[a] <- v, keeping the canonical form: writing what the unlisted address reads as removes the entry. -/
def Memory.write (p : Params) (m : Memory) (a : Nat) (v : Byte) : Memory :=
  if v = Memory.unlisted p a then Memory.erase a m else Memory.insert a v m

/-- Write bytes at ascending addresses from a (R67). -/
def Memory.writeAll (p : Params) (m : Memory) (a : Nat) : List Byte → Memory
  | [] => m
  | b :: bs => Memory.writeAll p (Memory.write p m a b) (a + 1) bs

/-- The addresses of a memory rise strictly from at least `lo` and stay inside the 4096 bytes, and no entry equals what
its address reads as unlisted. -/
def Memory.wfFrom (p : Params) (lo : Nat) : Memory → Bool
  | [] => true
  | (k, b) :: m => decide (lo ≤ k) && decide (k < memSize) && !(b == Memory.unlisted p k) && Memory.wfFrom p (k + 1) m

/-- The canonical form of a memory (assumption 9). -/
def Memory.wf (p : Params) (m : Memory) : Bool := Memory.wfFrom p 0 m

/-! ### Reading and writing state elements (R10, R11) -/

/-- V[i]. -/
def State.reg (s : State) (i : Reg) : Byte := s.v[i]

/-- V[i] <- b. -/
def State.setReg (s : State) (i : Reg) (b : Byte) : State := { s with v := s.v.set i b }

/-- V[15], the flag register (R23). -/
abbrev vf : Reg := 15

/-- MemRead(a, 1). -/
def State.readByte (s : State) (a : Nat) : Byte := Memory.read s.params s.mem a

/-- MemWrite(a, 1, b). -/
def State.writeByte (s : State) (a : Nat) (b : Byte) : State := { s with mem := Memory.write s.params s.mem a b }

/-- MemWrite of several bytes at ascending addresses from a. -/
def State.writeBytes (s : State) (a : Nat) (bs : List Byte) : State :=
  { s with mem := Memory.writeAll s.params s.mem a bs }

/-- pc <- target. -/
def State.setPc (s : State) (w : Word) : State := { s with pc := w }

/-- I <- w. -/
def State.setIdx (s : State) (w : Word) : State := { s with idx := w }

/-- DT <- b. -/
def State.setDt (s : State) (b : Byte) : State := { s with dt := b }

/-- ST <- b. -/
def State.setSt (s : State) (b : Byte) : State := { s with st := b }

/-- KEY[k] <- b, the input collaborator's write (R45). -/
def State.setKey (s : State) (k : Key) (b : Bool) : State := { s with keys := s.keys.set k b }

/-- DISP <- d. -/
def State.setDisp (s : State) (d : Display) : State := { s with disp := d }

/-- STACK[j]. -/
def State.slot (s : State) (j : Fin 16) : Word := s.stack[j]

/-- KEY[k]. -/
def State.key (s : State) (k : Key) : Bool := s.keys[k]

/-- DISP[r][c] (R31). -/
def State.pixel (s : State) (r : Fin 32) (c : Fin 64) : Bool := s.disp[r][c]

/-- One free value has been consumed (assumption 6). -/
def State.nextDraw (s : State) : State := { s with draws := s.draws + 1 }

/-! ### Raising a MachineFault (R12, R302, R308) -/

/-- `raise MachineFault(k)`: the step ends, no state change of it is kept, nothing is saved and nothing is
vectored; only the kind is returned (R301, R302, R308). There is no return from it (R309). -/
def raise (k : Fault) : Host.Outcome State Fault Refusal := .fault k

/-! ### The program counter (R122, R140) -/

/-- The advance of R122: pc <- pc + 2. -/
def State.advance (s : State) : State := s.setPc (s.pc + 2)

/-- A skip (R140): pc <- pc + 2 when the condition holds. -/
def State.skipIf (s : State) (c : Bool) : State := if c then s.setPc (s.pc + 2) else s

/-- Back to the fetched instruction (R264): pc <- pc - 2. -/
def State.rewind (s : State) : State := s.setPc (s.pc - 2)

/-! ### The call stack (R28, R145, R146) -/

/-- Push(v): STACK[SP] <- v, then SP <- SP + 1; StackOverflow at SP = 16 (R145). -/
def State.push (s : State) (w : Word) : Except Fault State :=
  if h : s.sp.val < 16 then
    .ok { s with stack := s.stack.set s.sp.val w, sp := ⟨s.sp.val + 1, by omega⟩ }
  else .error .stackOverflow

/-- Pop(): SP <- SP - 1, then read STACK[SP], which keeps its value; StackUnderflow at SP = 0 (R146). -/
def State.pop (s : State) : Except Fault (Word × State) :=
  if h : 0 < s.sp.val then
    .ok (s.stack[s.sp.val - 1], { s with sp := ⟨s.sp.val - 1, by omega⟩ })
  else .error .stackUnderflow

/-! ### The fetch (R62, R65, R121) -/

/-- Fetch16(a) = MEM[a] ++ MEM[a+1], high byte first (R62). -/
def State.fetch16 (s : State) (a : Nat) : Word := wordOfBytes (s.readByte a) (s.readByte (a + 1))

/-- The fetch of a step, with its check: FetchOutOfRange when pc > 0xFFE (R65). -/
def State.fetch (s : State) : Except Fault Word :=
  if s.pc.toNat ≤ 0xFFE then .ok (s.fetch16 s.pc.toNat) else .error .fetchOutOfRange

/-! ### The keypad (R264, R265) -/

/-- H = the keys that are held, in rising order (R264). -/
def State.heldKeys (s : State) : List Key := (List.finRange 16).filter s.key

/-- `choose k in H` for the non-empty H = first :: others: the free choice is reduced modulo the size of H, so
that it is a held key and any of them (R265; assumption 5). -/
def chooseKey (choice : Nat) (first : Key) (others : List Key) : Key :=
  (first :: others).getD (choice % (others.length + 1)) first

/-! ### The display (R240, R241) -/

/-- The display with every pixel off (R240). -/
def Display.clear : Display := Vector.replicate 32 (Vector.replicate 64 false)

/-- A pixel of a display. -/
def Display.get (d : Display) (r : Fin 32) (c : Fin 64) : Bool := d[r][c]

/-- Toggle one pixel. -/
def Display.toggle (d : Display) (r : Fin 32) (c : Fin 64) : Display := d.set r (d[r].set c (!d[r][c]))

/-- Row number modulo 32 (R245). -/
def wrapRow (n : Nat) : Fin 32 := ⟨n % 32, by omega⟩

/-- Column number modulo 64 (R245). -/
def wrapCol (n : Nat) : Fin 64 := ⟨n % 64, by omega⟩

/-- The pixels one sprite byte covers, left to right, each with its bit: column col of the row is bit 7 - col (R243). -/
def spriteRow (oy ox row : Nat) (b : Byte) : List ((Fin 32 × Fin 64) × Bool) :=
  (List.range 8).map fun col => ((wrapRow (oy + row), wrapCol (ox + col)), b.getLsbD (7 - col))

/-- The pixels a sprite covers, row by row from row number `row`, in the order R241 visits them. -/
def spriteCells (oy ox : Nat) : (row : Nat) → List Byte → List ((Fin 32 × Fin 64) × Bool)
  | _, [] => []
  | row, b :: bs => spriteRow oy ox row b ++ spriteCells oy ox (row + 1) bs

/-- The body of R241's inner loop: a bit of 1 collides if the pixel is on, and toggles it. -/
def drawCell (acc : Display × Bool) (cell : (Fin 32 × Fin 64) × Bool) : Display × Bool :=
  if cell.2 then
    (acc.1.toggle cell.1.1 cell.1.2, acc.2 || acc.1.get cell.1.1 cell.1.2)
  else acc

/-- The drawing subroutine: a pure function of (display, memory slice, origin, height) to (new display, collision
flag) (R242). The height is the number of rows. -/
def drawSprite (oy ox : Nat) (rows : List Byte) (d : Display) : Display × Bool :=
  (spriteCells oy ox 0 rows).foldl drawCell (d, false)

end Sys2Proof.Machine
end

