-- ==== Sys2Proof/Machine/Flags.lean ====
section
/-! DEFINITION. The flag computations (42_alu.md R170, R177 to R183; 44_display.md R244) and the one write of a result
and a flag, the flag last (R180). Each flag is computed on unbounded integers from the operands before any write (R179). -/

namespace Sys2Proof.Machine

/-- A flag's byte: 1 or 0 (R23). -/
def flagByte (b : Bool) : Byte := if b then 1 else 0

/-- Carry of 8xy4: the unbounded sum exceeds 255 (R177). -/
def carryOf (vx vy : Byte) : Bool := decide (vx.toNat + vy.toNat > 255)

/-- No-borrow of a - b: a ≥ b (R178 with a = Vx, R182 with a = Vy). -/
def noBorrowOf (a b : Byte) : Bool := decide (a.toNat ≥ b.toNat)

/-- The bit a right shift pushes out: bit 0 (R181). -/
def shiftedOutRight (vx : Byte) : Bool := vx.getLsbD 0

/-- The bit a left shift pushes out: bit 7 (R183). -/
def shiftedOutLeft (vx : Byte) : Bool := vx.getLsbD 7

/-- V[x] <- result, then V[15] <- flag: when x = 0xF the flag is what stays (R24, R180; the spec's own choice D9,
assumption 15). -/
def State.setResultFlag (s : State) (x : Reg) (result : Byte) (flag : Bool) : State :=
  (s.setReg x result).setReg vf (flagByte flag)

end Sys2Proof.Machine
end

