-- ==== Sys2Proof/Machine/Alu.lean ====
section
/-! DEFINITION. Register and ALU instructions (42_alu.md). Operands are read before any write (00_scope.md R13). -/

namespace Sys2Proof.Machine

/-- LD Vx, nn (R171): V[x] <- nn. -/
def execLdImm (x : Reg) (nn : Byte) (s : State) : Host.Outcome State Fault Refusal := .next (s.setReg x nn)

/-- ADD Vx, nn (R172): V[x] <- (V[x] + nn) mod 256, no flag. -/
def execAddImm (x : Reg) (nn : Byte) (s : State) : Host.Outcome State Fault Refusal :=
  .next (s.setReg x (s.reg x + nn))

/-- LD Vx, Vy (R173): V[x] <- V[y]. -/
def execLdReg (x y : Reg) (s : State) : Host.Outcome State Fault Refusal := .next (s.setReg x (s.reg y))

/-- OR Vx, Vy (R174): no flag. -/
def execOr (x y : Reg) (s : State) : Host.Outcome State Fault Refusal := .next (s.setReg x (s.reg x ||| s.reg y))

/-- AND Vx, Vy (R175): no flag. -/
def execAnd (x y : Reg) (s : State) : Host.Outcome State Fault Refusal := .next (s.setReg x (s.reg x &&& s.reg y))

/-- XOR Vx, Vy (R176): no flag. -/
def execXor (x y : Reg) (s : State) : Host.Outcome State Fault Refusal := .next (s.setReg x (s.reg x ^^^ s.reg y))

/-- ADD Vx, Vy (R177): the sum mod 256, VF = carry. -/
def execAddReg (x y : Reg) (s : State) : Host.Outcome State Fault Refusal :=
  .next (s.setResultFlag x (s.reg x + s.reg y) (carryOf (s.reg x) (s.reg y)))

/-- SUB Vx, Vy (R178): Vx - Vy mod 256, VF = no-borrow. -/
def execSub (x y : Reg) (s : State) : Host.Outcome State Fault Refusal :=
  .next (s.setResultFlag x (s.reg x - s.reg y) (noBorrowOf (s.reg x) (s.reg y)))

/-- SUBN Vx, Vy (R182): Vy - Vx mod 256, VF = no-borrow. -/
def execSubn (x y : Reg) (s : State) : Host.Outcome State Fault Refusal :=
  .next (s.setResultFlag x (s.reg y - s.reg x) (noBorrowOf (s.reg y) (s.reg x)))

/-- SHR Vx, Vy (R181): Vx >> 1, VF = old bit 0; Vy is not read. -/
def execShr (x _y : Reg) (s : State) : Host.Outcome State Fault Refusal :=
  .next (s.setResultFlag x (s.reg x >>> 1) (shiftedOutRight (s.reg x)))

/-- SHL Vx, Vy (R183): (Vx << 1) mod 256, VF = old bit 7; Vy is not read. -/
def execShl (x _y : Reg) (s : State) : Host.Outcome State Fault Refusal :=
  .next (s.setResultFlag x (s.reg x <<< 1) (shiftedOutLeft (s.reg x)))

/-- V[x] <- r AND nn for the draw r (R185). -/
def State.setMasked (s : State) (x : Reg) (nn r : Byte) : State := s.setReg x (r &&& nn)

/-- RND Vx, nn (R185): r is the next free byte (assumption 4). -/
def execRnd (x : Reg) (nn : Byte) (s : State) : Host.Outcome State Fault Refusal :=
  .next ((s.setMasked x nn (Config.randomByte s.draws)).nextDraw)

end Sys2Proof.Machine
end

