-- ==== Sys2Proof/Machine/Operands.lean ====
section
/-! DEFINITION. Operand forms: zero-extended addresses (30_encoding.md R93), the addresses of a data access with
their checks (20_memory.md R64, R66, R67), and the register lists of Fx55 and Fx65 (43_index_memory.md R221, R223). -/

namespace Sys2Proof.Machine

/-- zext_16(nnn) (R93). -/
def zext16 (nnn : Addr12) : Word := nnn.setWidth 16

/-- The addresses I + off for off = 0..n-1, as unbounded integers (R64). -/
def State.dataAddrs (s : State) (n : Nat) : List Nat := (List.range n).map (s.idx.toNat + ·)

/-- DataAddr's check on every address accessed: none is above 0xFFF (R64). -/
def allInMemory (as : List Nat) : Bool := as.all fun a => decide (a ≤ 0xFFF)

/-- FontCheck on every address written: none is at or below 0x04F (R66). -/
def allAboveFont (as : List Nat) : Bool := as.all fun a => !decide (a ≤ 0x04F)

/-- The registers V0..Vx, in rising order (R221, R223). -/
def regsUpTo (x : Reg) : List Reg := (List.finRange 16).filter fun r => decide (r ≤ x)

/-- A store of several bytes at I: every address is checked for range, then for the font, before any is written
(R64, R66, R67, R306). -/
def State.storeAtIdx (s : State) (bs : List Byte) : Host.Outcome State Fault Refusal :=
  if allInMemory (s.dataAddrs bs.length) then
    if allAboveFont (s.dataAddrs bs.length) then .next (s.writeBytes s.idx.toNat bs)
    else raise .fontWrite
  else raise .memoryOutOfRange

/-- KeyCheck(v): KeyOutOfRange when v > 0xF, else the key (R262). -/
def keyCheck (b : Byte) : Except Fault Key :=
  if h : b.toNat < 16 then .ok ⟨b.toNat, h⟩ else .error .keyOutOfRange

end Sys2Proof.Machine
end

