-- ==== Sys2Proof/Machine/ControlFlow.lean ====
section
/-! DEFINITION. Control transfer (41_control_flow.md). On entry pc is already the fetched address plus 2 (40_cycle.md R122). -/

namespace Sys2Proof.Machine

/-- RET (R147): pc <- Pop(). -/
def execRet (s : State) : Host.Outcome State Fault Refusal :=
  match s.pop with
  | .ok (w, t) => .next (t.setPc w)
  | .error k => raise k

/-- JP nnn (R141): pc <- zext_16(nnn). -/
def execJp (nnn : Addr12) (s : State) : Host.Outcome State Fault Refusal := .next (s.setPc (zext16 nnn))

/-- CALL nnn (R143): Push(pc), then pc <- zext_16(nnn). -/
def execCall (nnn : Addr12) (s : State) : Host.Outcome State Fault Refusal :=
  match s.push s.pc with
  | .ok t => .next (t.setPc (zext16 nnn))
  | .error k => raise k

/-- SE Vx, nn (R149): skip if equal. -/
def execSeImm (x : Reg) (nn : Byte) (s : State) : Host.Outcome State Fault Refusal :=
  .next (s.skipIf (s.reg x == nn))

/-- SNE Vx, nn (R150): skip if not equal. -/
def execSneImm (x : Reg) (nn : Byte) (s : State) : Host.Outcome State Fault Refusal :=
  .next (s.skipIf (s.reg x != nn))

/-- SE Vx, Vy (R151): skip if the registers are equal. -/
def execSeReg (x y : Reg) (s : State) : Host.Outcome State Fault Refusal :=
  .next (s.skipIf (s.reg x == s.reg y))

/-- SNE Vx, Vy (R152): skip if the registers differ. -/
def execSneReg (x y : Reg) (s : State) : Host.Outcome State Fault Refusal :=
  .next (s.skipIf (s.reg x != s.reg y))

/-- JP V0, nnn (R153): pc <- V[0] + zext_16(nnn), not reduced to 12 bits. -/
def execJpV0 (nnn : Addr12) (s : State) : Host.Outcome State Fault Refusal :=
  .next (s.setPc ((s.reg 0).setWidth 16 + zext16 nnn))

end Sys2Proof.Machine
end

