-- ==== Sys2Proof/Machine/DisplayOps.lean ====
section
/-! DEFINITION. Display instructions (44_display.md). -/

namespace Sys2Proof.Machine

/-- CLS (R240): every pixel off; VF is not written. -/
def execCls (s : State) : Host.Outcome State Fault Refusal := .next (s.setDisp Display.clear)

/-- DRW Vx, Vy, n (R241): origin (Vx mod 64, Vy mod 32), read before VF is written (R247, assumption 16); rows from
memory[I + row]; VF = collision (R244). -/
def execDrw (x y : Reg) (n : Fin 16) (s : State) : Host.Outcome State Fault Refusal :=
  if allInMemory (s.dataAddrs n.val) then
    let drawn := drawSprite ((s.reg y).toNat % 32) ((s.reg x).toNat % 64) ((s.dataAddrs n.val).map s.readByte) s.disp
    .next ((s.setDisp drawn.1).setReg vf (flagByte drawn.2))
  else raise .memoryOutOfRange

end Sys2Proof.Machine
end

