-- ==== Sys2Proof/Machine/IndexMemory.lean ====
section
/-! DEFINITION. Index register and memory instructions (43_index_memory.md). I is never changed as a side effect (R27). -/

namespace Sys2Proof.Machine

/-- LD I, nnn (R210): I <- zext_16(nnn). -/
def execLdI (nnn : Addr12) (s : State) : Host.Outcome State Fault Refusal := .next (s.setIdx (zext16 nnn))

/-- ADD I, Vx (R212): I <- (I + V[x]) mod 65536; VF is not written (assumption 21). -/
def execAddIVx (x : Reg) (s : State) : Host.Outcome State Fault Refusal :=
  .next (s.setIdx (s.idx + (s.reg x).setWidth 16))

/-- LD F, Vx (R214): I <- V[x] * 5, with no mask (R215). -/
def execLdFVx (x : Reg) (s : State) : Host.Outcome State Fault Refusal :=
  .next (s.setIdx ((s.reg x).setWidth 16 * 5))

/-- The decimal digits of a byte, hundreds first (R218). -/
def decimalDigits (b : Byte) : List Byte :=
  [BitVec.ofNat 8 (b.toNat / 100), BitVec.ofNat 8 (b.toNat / 10 % 10), BitVec.ofNat 8 (b.toNat % 10)]

/-- LD B, Vx (R218): the decimal digits of V[x] at I, I+1, I+2. -/
def execLdBVx (x : Reg) (s : State) : Host.Outcome State Fault Refusal := s.storeAtIdx (decimalDigits (s.reg x))

/-- LD [I], Vx (R221): V0..Vx at I..I+x. -/
def execLdMemVx (x : Reg) (s : State) : Host.Outcome State Fault Refusal := s.storeAtIdx ((regsUpTo x).map s.reg)

/-- V[idx] <- MemRead(I + idx, 1) for the given registers in order (R223). -/
def State.loadRegs (s : State) (rs : List Reg) : State :=
  rs.foldl (fun t r => t.setReg r (s.readByte (s.idx.toNat + r.val))) s

/-- LD Vx, [I] (R223): V0..Vx from I..I+x. -/
def execLdVxMem (x : Reg) (s : State) : Host.Outcome State Fault Refusal :=
  if allInMemory (s.dataAddrs (x.val + 1)) then .next (s.loadRegs (regsUpTo x)) else raise .memoryOutOfRange

end Sys2Proof.Machine
end

