-- ==== Sys2Proof/Machine/KeypadTimers.lean ====
section
/-! DEFINITION. Keypad and timer instructions (45_keypad_timers.md). -/

namespace Sys2Proof.Machine

/-- SKP Vx (R260): KeyCheck, then skip if the key is held. -/
def execSkp (x : Reg) (s : State) : Host.Outcome State Fault Refusal :=
  match keyCheck (s.reg x) with
  | .ok k => .next (s.skipIf (s.key k))
  | .error f => raise f

/-- SKNP Vx (R261): KeyCheck, then skip if the key is not held. -/
def execSknp (x : Reg) (s : State) : Host.Outcome State Fault Refusal :=
  match keyCheck (s.reg x) with
  | .ok k => .next (s.skipIf (!s.key k))
  | .error f => raise f

/-- LD Vx, DT (R263): V[x] <- DT. -/
def execLdVxDt (x : Reg) (s : State) : Host.Outcome State Fault Refusal := .next (s.setReg x s.dt)

/-- LD Vx, K (R264): with no key held the pc goes back to this instruction and nothing else changes; else V[x] <- a held
key, which one being free (R265, assumption 5). -/
def execLdVxK (x : Reg) (s : State) : Host.Outcome State Fault Refusal :=
  match s.heldKeys with
  | [] => .next s.rewind
  | k :: ks => .next ((s.setReg x (BitVec.ofNat 8 (chooseKey (Config.keyChoice s.draws) k ks).val)).nextDraw)

/-- LD DT, Vx (R266): DT <- V[x]. -/
def execLdDtVx (x : Reg) (s : State) : Host.Outcome State Fault Refusal := .next (s.setDt (s.reg x))

/-- LD ST, Vx (R267): ST <- V[x]. -/
def execLdStVx (x : Reg) (s : State) : Host.Outcome State Fault Refusal := .next (s.setSt (s.reg x))

end Sys2Proof.Machine
end

