-- ==== Sys2Proof/Machine/Step.lean ====
section
/-! DEFINITION. One step of the cycle driver (40_cycle.md R120 to R126), and where the host's probe puts an instruction. -/

namespace Sys2Proof.Machine

/-- `step` (R120): fetch check, fetch, advance, decode, execute. An unknown opcode keeps only the advance and is no
fault (R126); its word is in the result the port returns (Machine/Ports.lean, assumption 7). A fault keeps no change:
the outcome carries its kind and no state (R125, assumption 8). -/
def step (s : State) : Host.Outcome State Fault Refusal :=
  match s.fetch with
  | .error k => raise k
  | .ok w =>
    match decode s.params.looseSkipDecode w with
    | .unknown _ => .next s.advance
    | .instr i => exec i s.advance

/-- The state whose next fetch succeeds: pc itself where it is at most 0xFFE, else the load address (assumption 10). -/
def State.fetchable (s : State) : State :=
  if s.pc.toNat ≤ 0xFFE then s else s.setPc (BitVec.ofNat 16 loadAddress)

/-- The state with a table word stored where the next fetch reads it, high byte at the lower address (R62). -/
def State.withFetchWord (s : State) (nbits w : Nat) : State :=
  s.fetchable.writeBytes s.fetchable.pc.toNat (tableBytes nbits w)

end Sys2Proof.Machine
end

