-- ==== Sys2Proof/Machine/Assembler.lean ====
section
/-! DEFINITION. The spec's own notation: the syntax column of 30_encoding.md R95 as text (R101), and the items of a program
listing with the four pseudo-instructions of R102. Notation only: the machine reads words (assumption 29). -/

namespace Sys2Proof.Machine

/-- A hexadecimal digit (R101). -/
def hexDigit (n : Nat) : String :=
  match n with
  | 0 => "0" | 1 => "1" | 2 => "2" | 3 => "3" | 4 => "4" | 5 => "5" | 6 => "6" | 7 => "7" | 8 => "8" | 9 => "9"
  | 10 => "A" | 11 => "B" | 12 => "C" | 13 => "D" | 14 => "E" | _ => "F"

/-- A register's name, V0..VF (R21, R101). -/
def regName (r : Reg) : String := "V" ++ hexDigit r.val

/-- A hexadecimal number of at most three digits written 0x.., without leading zeros (R101). -/
def hexText (n : Nat) : String :=
  if n < 16 then "0x" ++ hexDigit n
  else if n < 256 then "0x" ++ hexDigit (n / 16) ++ hexDigit (n % 16)
  else "0x" ++ hexDigit (n / 256) ++ hexDigit (n / 16 % 16) ++ hexDigit (n % 16)

/-- An instruction in the syntax of R95 and R101. -/
def asmText : Instr → String
  | .cls => "CLS"
  | .ret => "RET"
  | .jp nnn => "JP " ++ hexText nnn.toNat
  | .call nnn => "CALL " ++ hexText nnn.toNat
  | .seImm x nn => "SE " ++ regName x ++ ", " ++ hexText nn.toNat
  | .sneImm x nn => "SNE " ++ regName x ++ ", " ++ hexText nn.toNat
  | .seReg x y => "SE " ++ regName x ++ ", " ++ regName y
  | .ldImm x nn => "LD " ++ regName x ++ ", " ++ hexText nn.toNat
  | .addImm x nn => "ADD " ++ regName x ++ ", " ++ hexText nn.toNat
  | .ldReg x y => "LD " ++ regName x ++ ", " ++ regName y
  | .orReg x y => "OR " ++ regName x ++ ", " ++ regName y
  | .andReg x y => "AND " ++ regName x ++ ", " ++ regName y
  | .xorReg x y => "XOR " ++ regName x ++ ", " ++ regName y
  | .addReg x y => "ADD " ++ regName x ++ ", " ++ regName y
  | .sub x y => "SUB " ++ regName x ++ ", " ++ regName y
  | .shr x y => "SHR " ++ regName x ++ ", " ++ regName y
  | .subn x y => "SUBN " ++ regName x ++ ", " ++ regName y
  | .shl x y => "SHL " ++ regName x ++ ", " ++ regName y
  | .sneReg x y => "SNE " ++ regName x ++ ", " ++ regName y
  | .ldI nnn => "LD I, " ++ hexText nnn.toNat
  | .jpV0 nnn => "JP V0, " ++ hexText nnn.toNat
  | .rnd x nn => "RND " ++ regName x ++ ", " ++ hexText nn.toNat
  | .drw x y n => "DRW " ++ regName x ++ ", " ++ regName y ++ ", " ++ hexText n.val
  | .skp x => "SKP " ++ regName x
  | .sknp x => "SKNP " ++ regName x
  | .ldVxDt x => "LD " ++ regName x ++ ", DT"
  | .ldVxK x => "LD " ++ regName x ++ ", K"
  | .ldDtVx x => "LD DT, " ++ regName x
  | .ldStVx x => "LD ST, " ++ regName x
  | .addIVx x => "ADD I, " ++ regName x
  | .ldFVx x => "LD F, " ++ regName x
  | .ldBVx x => "LD B, " ++ regName x
  | .ldMemVx x => "LD [I], " ++ regName x
  | .ldVxMem x => "LD " ++ regName x ++ ", [I]"

/-- One line of a program listing: an instruction, or one of the pseudo-instructions of R102. -/
inductive AsmItem where
  | instr (i : Instr)
  /-- `SHR Vx` is `SHR Vx, V0`, encoding 8x06. -/
  | shrOne (x : Reg)
  /-- `SHL Vx` is `SHL Vx, V0`, encoding 8x0E. -/
  | shlOne (x : Reg)
  /-- `DB b` places one byte. -/
  | db (b : Byte)
  /-- `DW w` places a word, big-endian. -/
  | dw (w : Word)
  deriving DecidableEq, Repr

/-- The bytes an item places (R102). -/
def AsmItem.bytes : AsmItem → List Byte
  | .instr i => encodeBytes i
  | .shrOne x => encodeBytes (.shr x 0)
  | .shlOne x => encodeBytes (.shl x 0)
  | .db b => [b]
  | .dw w => [highByte w, lowByte w]

/-- The ROM bytes of a listing, in order. -/
def assemble (items : List AsmItem) : List Byte := items.flatMap AsmItem.bytes

end Sys2Proof.Machine
end

