-- ==== Sys2Proof/Machine/Ports.lean ====
section
/-! DEFINITION. The block's ports (10_state.md R40 to R48; 40_cycle.md R120, R130, R132; 60_exceptions.md R301, R311,
R318; 70_reset_and_hazards.md R330): each transaction as a function of the state, and a run as a list of them. -/

namespace Sys2Proof.Machine

/-! ### step, with its result (R43, R120) -/

/-- The result of a `step` (R301). -/
inductive StepResult where
  /-- The instruction executed. -/
  | ok
  /-- The word matched no instruction; non-fatal (R126). -/
  | unknown (w : Word)
  /-- A MachineFault; only its kind is recorded (R301). -/
  | fault (k : Fault)
  /-- The executor had no meaning; never returned, since every instruction is modelled. -/
  | refused (r : Refusal)
  deriving DecidableEq, Repr

/-- What a `step` of this state returns (R120). -/
def stepResult (s : State) : StepResult :=
  match s.fetch with
  | .error k => .fault k
  | .ok w =>
    match decode s.params.looseSkipDecode w with
    | .unknown u => .unknown u
    | .instr i =>
      match exec i s.advance with
      | .next _ => .ok
      | .fault k => .fault k
      | .refused r => .refused r

/-- The state a `step` leaves: the next state, or on a fault the state before it, S0 (R125, R302). -/
def stepState (s : State) : State :=
  match step s with
  | .next t => t
  | .fault _ => s
  | .refused _ => s

/-! ### tick_timers (R130) -/

/-- One timer's tick: down by 1 when above 0, with no underflow (R130). -/
def tick (b : Byte) : Byte := if b.toNat > 0 then b - 1 else b

/-- `tick_timers` (R130): each timer on its own value; nothing else changes. -/
def tickTimers (s : State) : State := (s.setDt (tick s.dt)).setSt (tick s.st)

/-! ### load, reset, key_set (R132, R133, R330, R45) -/

/-- `load(rom)` (R132): none stands for OversizeROM, which changes nothing; else rom is copied from 0x200 up and
nothing else changes (R133). -/
def load (rom : List Byte) (s : State) : Option State :=
  if romFits rom then some (s.writeBytes loadAddress rom) else none

/-- `reset` (R330, R41): every state element to its reset value, whatever it held. The parameters stay (R8), and the
free values already consumed stay consumed (assumption 6). -/
def resetPort (s : State) : State := { State.resetWith s.params with draws := s.draws }

/-- `key_set(k, b)` (R45): none stands for the RangeError of an index above 15 (R48; assumption 24). -/
def keySet (k : Nat) (b : Bool) (s : State) : Option State :=
  if h : k < 16 then some (s.setKey ⟨k, h⟩ b) else none

/-! ### The outputs (R46, R47) -/

/-- The tone signal: ST ≠ 0 (R46). -/
def tone (s : State) : Bool := s.st != 0

/-- The display output: element row * 64 + column, row-major (R31, R47). -/
def displayElement (s : State) (k : Fin 2048) : Bool :=
  s.pixel ⟨k.val / 64, by omega⟩ ⟨k.val % 64, by omega⟩

/-! ### State accessors and mutators (R48) -/

/-- A state element as an accessor names it, with its index where it has one (R48). -/
inductive Element where
  | pc
  | reg (i : Nat)
  | idx
  | slot (j : Nat)
  | sp
  | key (k : Nat)
  | pixel (r c : Nat)
  | dt
  | st
  | mem (a : Nat)
  deriving DecidableEq, Repr

/-- Read a state element; none stands for RangeError, an index outside the declared range (R48; assumption 24). A
boolean reads as 0 or 1. -/
def peek (e : Element) (s : State) : Option Nat :=
  match e with
  | .pc => some s.pc.toNat
  | .reg i => if h : i < 16 then some (s.reg ⟨i, h⟩).toNat else none
  | .idx => some s.idx.toNat
  | .slot j => if h : j < 16 then some (s.slot ⟨j, h⟩).toNat else none
  | .sp => some s.sp.val
  | .key k => if h : k < 16 then some (s.key ⟨k, h⟩).toNat else none
  | .pixel r c => if h : r < 32 ∧ c < 64 then some (s.pixel ⟨r, h.1⟩ ⟨c, h.2⟩).toNat else none
  | .dt => some s.dt.toNat
  | .st => some s.st.toNat
  | .mem a => if a < memSize then some (s.readByte a).toNat else none

/-- A state element the host may write: every one but DISP, which has no mutator, and KEY, which has key_set (R47, R48). -/
inductive Mutable where
  | pc
  | reg (i : Nat)
  | idx
  | slot (j : Nat)
  | sp
  | dt
  | st
  | mem (a : Nat)
  deriving DecidableEq, Repr

/-- The accessor's name of an element the host may write. -/
def Mutable.element : Mutable → Element
  | .pc => .pc
  | .reg i => .reg i
  | .idx => .idx
  | .slot j => .slot j
  | .sp => .sp
  | .dt => .dt
  | .st => .st
  | .mem a => .mem a

/-- Write a state element; none stands for RangeError, a value or index outside the declared range, which changes
nothing (R48). A memory write is not checked against the font (R66). -/
def poke (e : Mutable) (n : Nat) (s : State) : Option State :=
  match e with
  | .pc => if n < 65536 then some (s.setPc (BitVec.ofNat 16 n)) else none
  | .reg i => if h : i < 16 ∧ n < 256 then some (s.setReg ⟨i, h.1⟩ (BitVec.ofNat 8 n)) else none
  | .idx => if n < 65536 then some (s.setIdx (BitVec.ofNat 16 n)) else none
  | .slot j => if h : j < 16 ∧ n < 65536 then some { s with stack := s.stack.set j (BitVec.ofNat 16 n) h.1 } else none
  | .sp => if h : n < 17 then some { s with sp := ⟨n, h⟩ } else none
  | .dt => if n < 256 then some (s.setDt (BitVec.ofNat 8 n)) else none
  | .st => if n < 256 then some (s.setSt (BitVec.ofNat 8 n)) else none
  | .mem a => if a < memSize ∧ n < 256 then some (s.writeByte a (BitVec.ofNat 8 n)) else none

/-! ### Transactions and runs (R40, R311, R312, R318) -/

/-- One port transaction (R40). -/
inductive Transaction where
  | reset
  | load (rom : List Byte)
  | step
  | tickTimers
  | keySet (k : Nat) (b : Bool)
  | mutate (e : Mutable) (n : Nat)
  /-- A state accessor; the display port reads pixels with it (R47, R48). -/
  | read (e : Element)
  /-- The tone output (R46). -/
  | readTone
  deriving DecidableEq, Repr

/-- What a transaction returns to the host (R301). -/
inductive PortResult where
  /-- reset, tick_timers, key_set and mutators that succeed. -/
  | done
  /-- The result of a step. -/
  | stepped (r : StepResult)
  /-- load succeeded. -/
  | loaded
  /-- load failed: the ROM is longer than 3584 bytes (R132). -/
  | oversizeROM
  /-- A mutator's, an accessor's or key_set's request was out of range (R48). -/
  | rangeError
  /-- What an accessor read. -/
  | value (n : Nat)
  /-- The level of the tone signal. -/
  | toneLevel (b : Bool)
  deriving DecidableEq, Repr

/-- The code of a fault kind (R301). -/
def Fault.code : Fault → Nat
  | .stackOverflow => 0x10
  | .stackUnderflow => 0x11
  | .memoryOutOfRange => 0x12
  | .fetchOutOfRange => 0x13
  | .fontWrite => 0x14
  | .keyOutOfRange => 0x15

/-- The code of a result, for those R301 numbers. -/
def PortResult.code : PortResult → Option Nat
  | .stepped .ok => some 0x00
  | .stepped (.unknown _) => some 0x01
  | .stepped (.fault k) => some k.code
  | .stepped (.refused _) => none
  | .oversizeROM => some 0x20
  | .rangeError => some 0x21
  | .done => none
  | .loaded => none
  | .value _ => none
  | .toneLevel _ => none

/-- An operation that may be turned away: its state and result, or no change and the failure. -/
def orElseUnchanged (s : State) (r : Option State) (success failure : PortResult) : State × PortResult :=
  match r with
  | some t => (t, success)
  | none => (s, failure)

/-- One transaction: the state it leaves and what it returns (R40). -/
def transact (s : State) : Transaction → State × PortResult
  | .reset => (resetPort s, .done)
  | .load rom => orElseUnchanged s (load rom s) .loaded .oversizeROM
  | .step => (stepState s, .stepped (stepResult s))
  | .tickTimers => (tickTimers s, .done)
  | .keySet k b => orElseUnchanged s (keySet k b s) .done .rangeError
  | .mutate e n => orElseUnchanged s (poke e n s) .done .rangeError
  | .read e => (s, (peek e s).elim .rangeError .value)
  | .readTone => (s, .toneLevel (tone s))

/-- Whether a result ends the run: a Fault, and nothing else (R303, R318). -/
def PortResult.isFault : PortResult → Bool
  | .stepped (.fault _) => true
  | _ => false

/-- A run: the transactions in the host's order, ending at the first Fault (R318; assumption 8). -/
def runTransactions : List Transaction → State → State × List PortResult
  | [], s => (s, [])
  | t :: ts, s =>
    let r := transact s t
    if r.2.isFault then (r.1, [r.2])
    else
      let rest := runTransactions ts r.1
      (rest.1, r.2 :: rest.2)

end Sys2Proof.Machine
end

