-- ==== Sys2Proof/Safety.lean ====
section
/-! DEFINITION. The terms claims use: the parts of a state and frames over them, the invariants, the states a contract
run reaches (70_reset_and_hazards.md R340), and when the spec says a step faults (60_exceptions.md R301). -/

namespace Sys2Proof.Machine

/-! ### Frames -/

/-- One element of the state (10_state.md R20), memory byte by byte and the display pixel by pixel; the last two are the
model's own fields. -/
inductive Part where
  | pc
  | reg (r : Reg)
  | idx
  | slot (j : Fin 16)
  | sp
  | key (k : Key)
  | pixel (r : Fin 32) (c : Fin 64)
  | dt
  | st
  | byte (a : Nat)
  | params
  | draws
  deriving DecidableEq, Repr

/-- A part holds the same value in two states. -/
def Part.Same (s t : State) : Part → Prop
  | .pc => t.pc = s.pc
  | .reg r => t.reg r = s.reg r
  | .idx => t.idx = s.idx
  | .slot j => t.slot j = s.slot j
  | .sp => t.sp = s.sp
  | .key k => t.key k = s.key k
  | .pixel r c => t.pixel r c = s.pixel r c
  | .dt => t.dt = s.dt
  | .st => t.st = s.st
  | .byte a => t.readByte a = s.readByte a
  | .params => t.params = s.params
  | .draws => t.draws = s.draws

/-- Every part outside `changed` is the same in t as in s. -/
def FrameBut (changed : Part → Prop) (s t : State) : Prop := ∀ p, ¬ changed p → p.Same s t

/-- Every part outside a list is the same in t as in s. -/
def Frame (changed : List Part) (s t : State) : Prop := FrameBut (· ∈ changed) s t

/-- Every part is the same. -/
def SameState (s t : State) : Prop := Frame [] s t

/-! ### Invariants -/

/-- The memory is in its canonical form (assumption 9). -/
def MemoryCanonical (s : State) : Prop := Memory.wf s.params s.mem = true

/-- The values pc and the stack slots can take when no host mutator writes them (R26): pc at most 0x10FE, every slot
at most 0x1000. -/
def ControlBounded (s : State) : Prop := s.pc.toNat ≤ 0x10FE ∧ ∀ j, (s.slot j).toNat ≤ 0x1000

/-- The invariant of contract runs. -/
def Invariant (s : State) : Prop := MemoryCanonical s ∧ ControlBounded s

/-! ### Contract runs (R340, R342) -/

/-- The states reached from a reset by the contract's transactions: reset, load, step, tick_timers and key_set, with no
mutator (R340). -/
inductive ContractReachable : State → Prop where
  | reset (p : Params) : ContractReachable (State.resetWith p)
  | resetAgain {s : State} : ContractReachable s → ContractReachable (resetPort s)
  | load {s t : State} (rom : List Byte) : ContractReachable s → load rom s = some t → ContractReachable t
  | step {s t : State} : ContractReachable s → step s = .next t → ContractReachable t
  | tick {s : State} : ContractReachable s → ContractReachable (tickTimers s)
  | keySet {s t : State} (k : Nat) (b : Bool) : ContractReachable s → keySet k b s = some t → ContractReachable t

/-- A run of n steps that meets no fault. -/
def SafeRun (n : Nat) (s : State) : Prop := ∃ t, Host.Core.run Sys2Proof.core n s = .next t

/-! ### When a step faults (R301) -/

/-- The fault condition of each instruction, from the table of R301: on entry pc is already advanced. -/
def InstrFaults (s : State) : Instr → Fault → Prop
  | .call _, k => k = .stackOverflow ∧ s.sp.val = 16
  | .ret, k => k = .stackUnderflow ∧ s.sp.val = 0
  | .drw _ _ n, k => k = .memoryOutOfRange ∧ 1 ≤ n.val ∧ s.idx.toNat + n.val - 1 > 0xFFF
  | .ldBVx _, k => (k = .memoryOutOfRange ∧ s.idx.toNat + 2 > 0xFFF) ∨ (k = .fontWrite ∧ s.idx.toNat ≤ 0x04F)
  | .ldMemVx x, k => (k = .memoryOutOfRange ∧ s.idx.toNat + x.val > 0xFFF) ∨ (k = .fontWrite ∧ s.idx.toNat ≤ 0x04F)
  | .ldVxMem x, k => k = .memoryOutOfRange ∧ s.idx.toNat + x.val > 0xFFF
  | .skp x, k => k = .keyOutOfRange ∧ (s.reg x).toNat > 0xF
  | .sknp x, k => k = .keyOutOfRange ∧ (s.reg x).toNat > 0xF
  | .cls, _ | .jp _, _ | .seImm _ _, _ | .sneImm _ _, _ | .seReg _ _, _ | .ldImm _ _, _ | .addImm _ _, _ | .ldReg _ _, _
  | .orReg _ _, _ | .andReg _ _, _ | .xorReg _ _, _ | .addReg _ _, _ | .sub _ _, _ | .shr _ _, _ | .subn _ _, _
  | .shl _ _, _ | .sneReg _ _, _ | .ldI _, _ | .jpV0 _, _ | .rnd _ _, _ | .ldVxDt _, _ | .ldVxK _, _ | .ldDtVx _, _
  | .ldStVx _, _ | .addIVx _, _ | .ldFVx _, _ => False

/-- The fault condition of a step (R301, R306): the fetch check first, then the decoded instruction's own. -/
def StepFaults (s : State) (k : Fault) : Prop :=
  (s.pc.toNat > 0xFFE ∧ k = .fetchOutOfRange) ∨
  (s.pc.toNat ≤ 0xFFE ∧ ∃ i, decode s.params.looseSkipDecode (s.fetch16 s.pc.toNat) = .instr i ∧ InstrFaults s i k)

/-! ### Decoding, skips and writers -/

/-- A word decodes to an instruction, whatever P_LOOSE_SKIP_DECODE is. -/
def DecodesTo (w : Word) (i : Instr) : Prop := ∀ loose, decode loose w = .instr i

/-- The instruction is a skip and its condition holds (R149 to R152, R260, R261). -/
def SkipTaken (s : State) : Instr → Prop
  | .seImm x nn => s.reg x = nn
  | .sneImm x nn => s.reg x ≠ nn
  | .seReg x y => s.reg x = s.reg y
  | .sneReg x y => s.reg x ≠ s.reg y
  | .skp x => ∃ k : Key, (s.reg x).toNat = k.val ∧ s.key k = true
  | .sknp x => ∃ k : Key, (s.reg x).toNat = k.val ∧ s.key k = false
  | .cls | .ret | .jp _ | .call _ | .ldImm _ _ | .addImm _ _ | .ldReg _ _ | .orReg _ _ | .andReg _ _ | .xorReg _ _
  | .addReg _ _ | .sub _ _ | .shr _ _ | .subn _ _ | .shl _ _ | .ldI _ | .jpV0 _ | .rnd _ _ | .drw _ _ _ | .ldVxDt _
  | .ldVxK _ | .ldDtVx _ | .ldStVx _ | .addIVx _ | .ldFVx _ | .ldBVx _ | .ldMemVx _ | .ldVxMem _ => False

/-- The instruction writes VF as a flag (R23). -/
def WritesFlag : Instr → Prop
  | .addReg _ _ | .sub _ _ | .shr _ _ | .subn _ _ | .shl _ _ | .drw _ _ _ => True
  | .cls | .ret | .jp _ | .call _ | .seImm _ _ | .sneImm _ _ | .seReg _ _ | .ldImm _ _ | .addImm _ _ | .ldReg _ _
  | .orReg _ _ | .andReg _ _ | .xorReg _ _ | .sneReg _ _ | .ldI _ | .jpV0 _ | .rnd _ _ | .skp _ | .sknp _ | .ldVxDt _
  | .ldVxK _ | .ldDtVx _ | .ldStVx _ | .addIVx _ | .ldFVx _ | .ldBVx _ | .ldMemVx _ | .ldVxMem _ => False

/-- The general registers an instruction writes as an ordinary destination (R22): V[x], and V0..Vx for LD_VX_MEM. -/
def WritesRegister (r : Reg) : Instr → Prop
  | .ldImm x _ | .addImm x _ | .ldReg x _ | .orReg x _ | .andReg x _ | .xorReg x _ | .addReg x _ | .sub x _ | .shr x _
  | .subn x _ | .shl x _ | .rnd x _ | .ldVxDt x | .ldVxK x => r = x
  | .ldVxMem x => r ≤ x
  | .cls | .ret | .jp _ | .call _ | .seImm _ _ | .sneImm _ _ | .seReg _ _ | .sneReg _ _ | .ldI _ | .jpV0 _
  | .drw _ _ _ | .skp _ | .sknp _ | .ldDtVx _ | .ldStVx _ | .addIVx _ | .ldFVx _ | .ldBVx _ | .ldMemVx _ => False

/-! ### Mutators (R48) -/

/-- The value and the index of a mutator's request lie in their declared ranges (R48). -/
def Mutable.InRange (n : Nat) : Mutable → Prop
  | .pc | .idx => n ≤ 0xFFFF
  | .reg i => i ≤ 15 ∧ n ≤ 255
  | .slot j => j ≤ 15 ∧ n ≤ 0xFFFF
  | .sp => n ≤ 16
  | .dt | .st => n ≤ 255
  | .mem a => a ≤ 0xFFF ∧ n ≤ 255

/-- The part of the state a mutator names. -/
def Mutable.Names : Mutable → Part → Prop
  | .pc, p => p = .pc
  | .reg i, p => ∃ r : Reg, r.val = i ∧ p = .reg r
  | .idx, p => p = .idx
  | .slot j, p => ∃ k : Fin 16, k.val = j ∧ p = .slot k
  | .sp, p => p = .sp
  | .dt, p => p = .dt
  | .st, p => p = .st
  | .mem a, p => p = .byte a

/-! ### The sprite (R241 to R245) -/

/-- A sprite of n rows read at I, with its origin from V[x] and V[y], has a bit of 1 on the pixel (r, c): some row and
column of it land there and the byte's bit 7 - column is 1. -/
def SpriteCovers (s : State) (x y : Reg) (n : Nat) (r : Fin 32) (c : Fin 64) : Prop :=
  ∃ row col : Nat, row < n ∧ col < 8 ∧
    ((s.reg y).toNat % 32 + row) % 32 = r.val ∧ ((s.reg x).toNat % 64 + col) % 64 = c.val ∧
    (s.readByte (s.idx.toNat + row)).getLsbD (7 - col) = true

end Sys2Proof.Machine
end

