-- ==== Sys2Proof/Certificates/Slice0/Obligations.lean ====
section
/-! DEFINITION. The statements for the provers, one `def Obligations.<Name> : Prop` each, listed in OBLIGATIONS.json.
Where a statement rests on a decision the spec marks as its own (92_eei_decisions.md) or on a log entry of the model,
its docstring names it. `Frame l s t`: every part of the state outside l is the same in t as in s. -/

open Sys2Proof Sys2Proof.Machine

/-! ### The cycle (40_cycle.md) -/

/-- R122: the pc is advanced by 2 after the fetch and before the execute, so a step whose word decodes to i is i executed
at the advanced pc, with nothing else around it. -/
def Obligations.StepRunsDecodedInstruction : Prop :=
  ∀ (s : State) (w : Word) (i : Instr), s.pc.toNat ≤ 0xFFE →
    w.toNat = (s.readByte s.pc.toNat).toNat * 256 + (s.readByte (s.pc.toNat + 1)).toNat →
    decode s.params.looseSkipDecode w = .instr i →
    step s = exec i { s with pc := s.pc + 2 } ∧ (s.pc + 2).toNat = s.pc.toNat + 2

/-- R97: every word is one of the 34 instructions or unknown, and a step whose word is unknown is no fault and does nothing
beyond the advance. -/
def Obligations.UnknownOpcodeOnlyAdvances : Prop :=
  (∀ (loose : Bool) (w : Word), (∃ i, decode loose w = .instr i) ∨ decode loose w = .unknown w) ∧
  ∀ (s : State) (w : Word), s.pc.toNat ≤ 0xFFE →
    w.toNat = (s.readByte s.pc.toNat).toNat * 256 + (s.readByte (s.pc.toNat + 1)).toNat →
    (∀ i, decode s.params.looseSkipDecode w ≠ .instr i) →
    ∃ t, step s = .next t ∧ t.pc.toNat = s.pc.toNat + 2 ∧ Frame [.pc] s t

/-- The fetch check (20_memory.md section 3; the spec's own choice D6): a pc above 0xFFE faults and keeps the state. -/
def Obligations.FetchOutsideMemoryFaults : Prop :=
  ∀ s : State, s.pc.toNat > 0xFFE →
    step s = .fault .fetchOutOfRange ∧ transact s .step = (s, .stepped (.fault .fetchOutOfRange))

/-- The step port: it returns Fault(k) exactly when the step faults with k, and then leaves the state it found (the spec's own
choice D1); on a next state it leaves that state and returns Ok, or Unknown(w) exactly when the word w fetched is unknown (the
spec's own choice D16). -/
def Obligations.StepPortReportsAndRollsBack : Prop :=
  ∀ s : State, (∀ k, step s = .fault k ↔ stepResult s = .fault k) ∧
    (∀ k, step s = .fault k → transact s .step = (s, .stepped (.fault k))) ∧
    (∀ t, step s = .next t → transact s .step = (t, .stepped (stepResult s)) ∧
      (stepResult s = .ok ∨ ∃ w, stepResult s = .unknown w)) ∧
    (∀ w, stepResult s = .unknown w ↔ s.pc.toNat ≤ 0xFFE ∧ w = s.fetch16 s.pc.toNat ∧
      ∀ i, decode s.params.looseSkipDecode w ≠ .instr i)

/-! ### Encoding (30_encoding.md) -/

/-- A few words written out from the layouts of R92 and R95 decode to the instructions they stand for. That 0x01E0 is unknown
is the model's choice with the spec's own D14 (log 18), by which group 0 matches the whole word. -/
def Obligations.SampleWordsDecode : Prop :=
  DecodesTo 0b0000000011100000 .cls ∧ DecodesTo 0b0000000011101110 .ret ∧
  DecodesTo 0b0001101010111100 (.jp 0xABC) ∧ DecodesTo 0b0110101001000010 (.ldImm 10 0x42) ∧
  DecodesTo 0b1000000100100100 (.addReg 1 2) ∧ DecodesTo 0b1101000000010001 (.drw 0 1 1) ∧
  DecodesTo 0b1110000110011110 (.skp 1) ∧ DecodesTo 0b1111111101100101 (.ldVxMem 15) ∧
  decode false 0b0000000111100000 = .unknown 0x01E0 ∧ decode false 0b1000000100101000 = .unknown 0x8128

/-- Decoding the word of a well-formed instruction gives that instruction back, with every operand, whatever
P_LOOSE_SKIP_DECODE is; and so does decoding its two bytes, leaving the rest. -/
def Obligations.DecodeInvertsEncode : Prop :=
  ∀ (loose : Bool) (i : Instr) (rest : List Byte), i.wellFormed = true →
    decode loose (encode i) = .instr i ∧ decodeBytes loose (encodeBytes i ++ rest) = .instr i rest

/-- Under strict decoding each instruction has one word: encoding what a word decodes to gives that word back. For CLS and RET
it rests on the spec's own choice D14 (log 18), that group 0 matches the whole word; the strict value is D15's default (log 3). -/
def Obligations.EncodeInvertsStrictDecode : Prop :=
  ∀ (w : Word) (i : Instr), decode false w = .instr i → encode i = w

/-- R95: a word decodes to an instruction of a row exactly when the row's mask and match select it, and no two rows match
the same word. Group 0's whole-word rows are the spec's own choice D14, the masks of rows 7 and 19 its parameter D15. -/
def Obligations.DecodeAgreesWithOpcodeMap : Prop :=
  ∀ loose : Bool,
    (∀ (w : Word) (r : OpcodeRow), r ∈ opcodeMap loose →
      (w &&& r.mask = r.pattern ↔ ∃ i, decode loose w = .instr i ∧ i.row loose = r)) ∧
    (∀ (w : Word) (i : Instr), decode loose w = .instr i → i.row loose ∈ opcodeMap loose) ∧
    (opcodeMap loose).length = 34 ∧
    (∀ (w : Word) (r q : OpcodeRow), r ∈ opcodeMap loose → q ∈ opcodeMap loose →
      w &&& r.mask = r.pattern → w &&& q.mask = q.pattern → r = q)

/-- The unknown words of R96 under strict decoding, by group and selector (rests on the spec's own choice D14, that group 0
matches the whole word). -/
def Obligations.UnknownWordsAreExactly : Prop :=
  ∀ w : Word, decode false w = .unknown w ↔
    (w.toNat / 4096 = 0x0 ∧ w.toNat ≠ 0x00E0 ∧ w.toNat ≠ 0x00EE) ∨
    (w.toNat / 4096 = 0x5 ∧ w.toNat % 16 ≠ 0) ∨
    (w.toNat / 4096 = 0x8 ∧ w.toNat % 16 ∈ [0x8, 0x9, 0xA, 0xB, 0xC, 0xD, 0xF]) ∨
    (w.toNat / 4096 = 0x9 ∧ w.toNat % 16 ≠ 0) ∨
    (w.toNat / 4096 = 0xE ∧ w.toNat % 256 ∉ [0x9E, 0xA1]) ∨
    (w.toNat / 4096 = 0xF ∧ w.toNat % 256 ∉ [0x07, 0x0A, 0x15, 0x18, 0x1E, 0x29, 0x33, 0x55, 0x65])

/-- R99: the parameter's default is false; when false 5xyN and 9xyN with N ≠ 0 are unknown, when true every 5xyN and 9xyN is
the skip (the parameter and its default: D15). -/
def Obligations.LooseSkipDecoding : Prop :=
  Params.default.looseSkipDecode = false ∧
  ∀ (x y : Reg) (n : BitVec 4),
    (n ≠ 0 → decode false (0x5#4 ++ regBits x ++ regBits y ++ n) = .unknown (0x5#4 ++ regBits x ++ regBits y ++ n) ∧
      decode false (0x9#4 ++ regBits x ++ regBits y ++ n) = .unknown (0x9#4 ++ regBits x ++ regBits y ++ n)) ∧
    decode true (0x5#4 ++ regBits x ++ regBits y ++ n) = .instr (.seReg x y) ∧
    decode true (0x9#4 ++ regBits x ++ regBits y ++ n) = .instr (.sneReg x y)

/-! ### Control flow (41_control_flow.md); on entry pc is A + 2 -/

/-- JP (R141): the fault of the next fetch at 0xFFF is the spec's own choice D6. -/
def Obligations.JumpSetsProgramCounter : Prop :=
  ∀ (nnn : Addr12) (s : State), DecodesTo (0x1#4 ++ nnn) (.jp nnn) ∧
    ∃ t, exec (.jp nnn) s = .next t ∧ t.pc.toNat = nnn.toNat ∧ Frame [.pc] s t ∧
      (nnn = 0xFFF → step t = .fault .fetchOutOfRange)

/-- JP V0 (R153): the target is not reduced to 12 bits; the fault of the next fetch is the spec's own choice D6. -/
def Obligations.JumpWithOffsetAddsV0 : Prop :=
  ∀ (nnn : Addr12) (s : State), DecodesTo (0xB#4 ++ nnn) (.jpV0 nnn) ∧
    ∃ t, exec (.jpV0 nnn) s = .next t ∧ t.pc.toNat = (s.reg 0).toNat + nnn.toNat ∧ Frame [.pc] s t ∧
      ((s.reg 0).toNat + nnn.toNat > 0xFFE → step t = .fault .fetchOutOfRange)

/-- CALL (R143, R145): the advanced pc goes to slot SP, SP goes up, pc is nnn; with 16 slots full it faults. The fault and
the slot order are the spec's own choices D2 and D4. -/
def Obligations.CallPushesReturnAddress : Prop :=
  ∀ (nnn : Addr12) (s : State), DecodesTo (0x2#4 ++ nnn) (.call nnn) ∧
    (∀ h : s.sp.val < 16, ∃ t, exec (.call nnn) s = .next t ∧ t.slot ⟨s.sp.val, h⟩ = s.pc ∧
      t.sp.val = s.sp.val + 1 ∧ t.pc.toNat = nnn.toNat ∧ Frame [.pc, .sp, .slot ⟨s.sp.val, h⟩] s t) ∧
    (s.sp.val = 16 → exec (.call nnn) s = .fault .stackOverflow)

/-- RET (R147, R146): SP goes down, pc is the slot it then names, which keeps its value; with no slot it faults. The fault and
the slot order are the spec's own choices D3 and D4. -/
def Obligations.ReturnPopsReturnAddress : Prop :=
  ∀ s : State, DecodesTo 0x00EE .ret ∧
    (∀ j : Fin 16, s.sp.val = j.val + 1 → ∃ t, exec .ret s = .next t ∧ t.pc = s.slot j ∧ t.sp.val = j.val ∧
      Frame [.pc, .sp] s t) ∧
    (s.sp.val = 0 → exec .ret s = .fault .stackUnderflow)

/-- A subroutine that leaves SP and the occupied slots as the call left them returns to the word after the call, with
SP as before the call (slot order: the spec's own choice D4). -/
def Obligations.CallThenReturnComesBack : Prop :=
  ∀ (nnn : Addr12) (s : State), s.sp.val < 16 →
    ∃ t, exec (.call nnn) s = .next t ∧
      ∀ u : State, u.sp = t.sp → (∀ j : Fin 16, j.val < t.sp.val → u.slot j = t.slot j) →
        ∃ v, exec .ret u = .next v ∧ v.pc = s.pc ∧ v.sp = s.sp ∧ Frame [.pc, .sp] u v

/-- R149, R150: skip on a comparison with an immediate. -/
def Obligations.SkipOnImmediate : Prop :=
  ∀ (x : Reg) (nn : Byte) (s : State),
    DecodesTo (0x3#4 ++ regBits x ++ nn) (.seImm x nn) ∧ DecodesTo (0x4#4 ++ regBits x ++ nn) (.sneImm x nn) ∧
    (∃ t, exec (.seImm x nn) s = .next t ∧ t.pc = (if s.reg x = nn then s.pc + 2 else s.pc) ∧ Frame [.pc] s t) ∧
    (∃ t, exec (.sneImm x nn) s = .next t ∧ t.pc = (if s.reg x = nn then s.pc else s.pc + 2) ∧ Frame [.pc] s t)

/-- R151, R152: skip on a comparison of two registers; with x = y the first always skips and the second never. 5xyN and 9xyN
with N ≠ 0 decode as these only under P_LOOSE_SKIP_DECODE (the spec's parameter D15). -/
def Obligations.SkipOnRegisters : Prop :=
  ∀ (x y : Reg) (s : State),
    DecodesTo (0x5#4 ++ regBits x ++ regBits y ++ 0x0#4) (.seReg x y) ∧
    DecodesTo (0x9#4 ++ regBits x ++ regBits y ++ 0x0#4) (.sneReg x y) ∧
    (∀ n : BitVec 4, n ≠ 0 → ∀ loose,
      ((∃ i, decode loose (0x5#4 ++ regBits x ++ regBits y ++ n) = .instr i) ↔ loose = true) ∧
      ((∃ i, decode loose (0x9#4 ++ regBits x ++ regBits y ++ n) = .instr i) ↔ loose = true)) ∧
    (∃ t, exec (.seReg x y) s = .next t ∧ t.pc = (if s.reg x = s.reg y then s.pc + 2 else s.pc) ∧ Frame [.pc] s t) ∧
    (∃ t, exec (.sneReg x y) s = .next t ∧ t.pc = (if s.reg x = s.reg y then s.pc else s.pc + 2) ∧ Frame [.pc] s t)

/-- R140: any taken skip fetched at A leaves pc = A + 4, passing over one word without looking at it, with no check of
the new pc; if that pc is above 0xFFE the next step's fetch faults (the spec's own choice D6). The condition of
SKP and SKNP is the level of the key at the step, the spec's own choice D13 (log 17). -/
def Obligations.TakenSkipPassesOverOneWord : Prop :=
  ∀ (s : State) (i : Instr), s.pc.toNat ≤ 0xFFE →
    decode s.params.looseSkipDecode (s.fetch16 s.pc.toNat) = .instr i → SkipTaken s i →
    ∃ t, step s = .next t ∧ t.pc.toNat = s.pc.toNat + 4 ∧ Frame [.pc] s t ∧
      (s.pc.toNat + 4 > 0xFFE → step t = .fault .fetchOutOfRange)

/-! ### ALU (42_alu.md) -/

/-- R171, R173: load an immediate, copy a register; no flag, VF an ordinary destination. -/
def Obligations.LoadImmediateAndCopy : Prop :=
  ∀ (x y : Reg) (nn : Byte) (s : State),
    DecodesTo (0x6#4 ++ regBits x ++ nn) (.ldImm x nn) ∧
    DecodesTo (0x8#4 ++ regBits x ++ regBits y ++ 0x0#4) (.ldReg x y) ∧
    (∃ t, exec (.ldImm x nn) s = .next t ∧ t.reg x = nn ∧ Frame [.reg x] s t) ∧
    (∃ t, exec (.ldReg x y) s = .next t ∧ t.reg x = s.reg y ∧ Frame [.reg x] s t)

/-- R172: add an immediate modulo 256, with no flag effect. -/
def Obligations.AddImmediateWraps : Prop :=
  ∀ (x : Reg) (nn : Byte) (s : State), DecodesTo (0x7#4 ++ regBits x ++ nn) (.addImm x nn) ∧
    ∃ t, exec (.addImm x nn) s = .next t ∧ (t.reg x).toNat = ((s.reg x).toNat + nn.toNat) % 256 ∧ Frame [.reg x] s t

/-- R174, R175, R176: OR, AND and XOR bit by bit; VF is not reset. -/
def Obligations.LogicOperationsBitwise : Prop :=
  ∀ (x y : Reg) (s : State),
    DecodesTo (0x8#4 ++ regBits x ++ regBits y ++ 0x1#4) (.orReg x y) ∧
    DecodesTo (0x8#4 ++ regBits x ++ regBits y ++ 0x2#4) (.andReg x y) ∧
    DecodesTo (0x8#4 ++ regBits x ++ regBits y ++ 0x3#4) (.xorReg x y) ∧
    (∃ t, exec (.orReg x y) s = .next t ∧ Frame [.reg x] s t ∧
      ∀ b, (t.reg x).getLsbD b = ((s.reg x).getLsbD b || (s.reg y).getLsbD b)) ∧
    (∃ t, exec (.andReg x y) s = .next t ∧ Frame [.reg x] s t ∧
      ∀ b, (t.reg x).getLsbD b = ((s.reg x).getLsbD b && (s.reg y).getLsbD b)) ∧
    (∃ t, exec (.xorReg x y) s = .next t ∧ Frame [.reg x] s t ∧
      ∀ b, (t.reg x).getLsbD b = ((s.reg x).getLsbD b != (s.reg y).getLsbD b))

/-- ADD Vx, Vy (R177, R179): sum modulo 256, VF = carry, both from the old operands. That VF keeps the flag when x = 0xF is the
spec's own choice D9. -/
def Obligations.AddSetsCarry : Prop :=
  ∀ (x y : Reg) (s : State), DecodesTo (0x8#4 ++ regBits x ++ regBits y ++ 0x4#4) (.addReg x y) ∧
    ∃ t, exec (.addReg x y) s = .next t ∧ Frame [.reg x, .reg vf] s t ∧
      (x ≠ vf → (t.reg x).toNat = ((s.reg x).toNat + (s.reg y).toNat) % 256) ∧
      (t.reg vf).toNat = (if (s.reg x).toNat + (s.reg y).toNat > 255 then 1 else 0)

/-- SUB and SUBN (R178, R182, R179): difference modulo 256, VF = no-borrow, both from the old operands. That VF keeps the flag
when x = 0xF is the spec's own choice D9. -/
def Obligations.SubtractSetsNoBorrow : Prop :=
  ∀ (x y : Reg) (s : State),
    DecodesTo (0x8#4 ++ regBits x ++ regBits y ++ 0x5#4) (.sub x y) ∧
    DecodesTo (0x8#4 ++ regBits x ++ regBits y ++ 0x7#4) (.subn x y) ∧
    (∃ t, exec (.sub x y) s = .next t ∧ Frame [.reg x, .reg vf] s t ∧
      (x ≠ vf → (t.reg x).toNat = ((s.reg x).toNat + 256 - (s.reg y).toNat) % 256) ∧
      (t.reg vf).toNat = (if (s.reg x).toNat ≥ (s.reg y).toNat then 1 else 0)) ∧
    (∃ t, exec (.subn x y) s = .next t ∧ Frame [.reg x, .reg vf] s t ∧
      (x ≠ vf → (t.reg x).toNat = ((s.reg y).toNat + 256 - (s.reg x).toNat) % 256) ∧
      (t.reg vf).toNat = (if (s.reg y).toNat ≥ (s.reg x).toNat then 1 else 0))

/-- SHR and SHL (R181, R183): Vx is source and destination, y is decoded and not read, VF = the bit shifted out. That VF keeps
the flag when x = 0xF is the spec's own choice D9. -/
def Obligations.ShiftsMoveVxAlone : Prop :=
  ∀ (x y : Reg) (s : State),
    DecodesTo (0x8#4 ++ regBits x ++ regBits y ++ 0x6#4) (.shr x y) ∧
    DecodesTo (0x8#4 ++ regBits x ++ regBits y ++ 0xE#4) (.shl x y) ∧
    (∃ t, exec (.shr x y) s = .next t ∧ Frame [.reg x, .reg vf] s t ∧
      (x ≠ vf → (t.reg x).toNat = (s.reg x).toNat / 2) ∧ (t.reg vf).toNat = (s.reg x).toNat % 2) ∧
    (∃ t, exec (.shl x y) s = .next t ∧ Frame [.reg x, .reg vf] s t ∧
      (x ≠ vf → (t.reg x).toNat = 2 * (s.reg x).toNat % 256) ∧ (t.reg vf).toNat = (s.reg x).toNat / 128)

/-- RND (R185): the draw masked by nn, for every value of the draw, which is a free value (the spec's own choice D24; log 4). -/
def Obligations.RandomByteIsMasked : Prop :=
  ∀ (x : Reg) (nn : Byte) (s : State), DecodesTo (0xC#4 ++ regBits x ++ nn) (.rnd x nn) ∧
    ∃ t, exec (.rnd x nn) s = .next t ∧ Frame [.reg x, .draws] s t ∧ t.draws = s.draws + 1 ∧
      (∀ b, (t.reg x).getLsbD b = ((Config.randomByte s.draws).getLsbD b && nn.getLsbD b)) ∧
      t.reg x &&& ~~~nn = 0

/-! ### Index register and memory (43_index_memory.md) -/

/-- R210. -/
def Obligations.LoadIndexSetsI : Prop :=
  ∀ (nnn : Addr12) (s : State), DecodesTo (0xA#4 ++ nnn) (.ldI nnn) ∧
    ∃ t, exec (.ldI nnn) s = .next t ∧ t.idx.toNat = nnn.toNat ∧ Frame [.idx] s t

/-- ADD I, Vx (R212): modulo 65536, VF not written; both are the spec's own choice D29. -/
def Obligations.AddToIndexWraps : Prop :=
  ∀ (x : Reg) (s : State), DecodesTo (0xF#4 ++ regBits x ++ 0x1E#8) (.addIVx x) ∧
    ∃ t, exec (.addIVx x) s = .next t ∧ t.idx.toNat = (s.idx.toNat + (s.reg x).toNat) % 65536 ∧ Frame [.idx] s t

/-- R214: I = Vx * 5, 0..1275, with no mask. -/
def Obligations.FontPointerIsFiveTimesVx : Prop :=
  ∀ (x : Reg) (s : State), DecodesTo (0xF#4 ++ regBits x ++ 0x29#8) (.ldFVx x) ∧
    ∃ t, exec (.ldFVx x) s = .next t ∧ t.idx.toNat = (s.reg x).toNat * 5 ∧ t.idx.toNat ≤ 1275 ∧ Frame [.idx] s t

/-- LD B, Vx (R218): hundreds, tens and ones at I, I+1, I+2 and nowhere else. The faults are the spec's own choices D5, D8. -/
def Obligations.StoreDecimalDigits : Prop :=
  ∀ (x : Reg) (s : State), DecodesTo (0xF#4 ++ regBits x ++ 0x33#8) (.ldBVx x) ∧
    (0x04F < s.idx.toNat → s.idx.toNat + 2 ≤ 0xFFF → ∃ t, exec (.ldBVx x) s = .next t ∧
      (t.readByte s.idx.toNat).toNat = (s.reg x).toNat / 100 ∧
      (t.readByte (s.idx.toNat + 1)).toNat = (s.reg x).toNat / 10 % 10 ∧
      (t.readByte (s.idx.toNat + 2)).toNat = (s.reg x).toNat % 10 ∧
      Frame [.byte s.idx.toNat, .byte (s.idx.toNat + 1), .byte (s.idx.toNat + 2)] s t) ∧
    (s.idx.toNat + 2 > 0xFFF → exec (.ldBVx x) s = .fault .memoryOutOfRange) ∧
    (s.idx.toNat ≤ 0x04F → exec (.ldBVx x) s = .fault .fontWrite)

/-- LD [I], Vx (R221): V0..Vx at I..I+x and nowhere else, I unchanged. The faults are the spec's own choices D5, D8. -/
def Obligations.StoreRegistersAtI : Prop :=
  ∀ (x : Reg) (s : State), DecodesTo (0xF#4 ++ regBits x ++ 0x55#8) (.ldMemVx x) ∧
    (0x04F < s.idx.toNat → s.idx.toNat + x.val ≤ 0xFFF → ∃ t, exec (.ldMemVx x) s = .next t ∧
      (∀ r : Reg, r ≤ x → t.readByte (s.idx.toNat + r.val) = s.reg r) ∧
      FrameBut (fun p => ∃ r : Reg, r ≤ x ∧ p = .byte (s.idx.toNat + r.val)) s t) ∧
    (s.idx.toNat + x.val > 0xFFF → exec (.ldMemVx x) s = .fault .memoryOutOfRange) ∧
    (s.idx.toNat ≤ 0x04F → exec (.ldMemVx x) s = .fault .fontWrite)

/-- LD Vx, [I] (R223): V0..Vx from I..I+x, no other register and no I. The fault is the spec's own choice D5. -/
def Obligations.LoadRegistersFromI : Prop :=
  ∀ (x : Reg) (s : State), DecodesTo (0xF#4 ++ regBits x ++ 0x65#8) (.ldVxMem x) ∧
    (s.idx.toNat + x.val ≤ 0xFFF → ∃ t, exec (.ldVxMem x) s = .next t ∧
      (∀ r : Reg, r ≤ x → t.reg r = s.readByte (s.idx.toNat + r.val)) ∧
      FrameBut (fun p => ∃ r : Reg, r ≤ x ∧ p = .reg r) s t) ∧
    (s.idx.toNat + x.val > 0xFFF → exec (.ldVxMem x) s = .fault .memoryOutOfRange)

/-- The round trip of R224: after a store of V0..Vx that did not fault, a load with the same x and I from memory that kept the
stored bytes restores V0..Vx, whatever happened to the rest of the state. -/
def Obligations.StoreThenLoadRestores : Prop :=
  ∀ (x : Reg) (s t u : State), exec (.ldMemVx x) s = .next t → u.idx = s.idx →
    (∀ r : Reg, r ≤ x → u.readByte (s.idx.toNat + r.val) = t.readByte (s.idx.toNat + r.val)) →
    ∃ w, exec (.ldVxMem x) u = .next w ∧ ∀ r : Reg, r ≤ x → w.reg r = s.reg r

/-! ### Display (44_display.md) -/

/-- R240. -/
def Obligations.ClearScreenTurnsEveryPixelOff : Prop :=
  ∀ s : State, DecodesTo 0x00E0 .cls ∧
    ∃ t, exec .cls s = .next t ∧ (∀ r c, t.pixel r c = false) ∧ FrameBut (fun p => ∃ r c, p = .pixel r c) s t

/-- DRW (R241 to R247): the drawing loop as a formula. A pixel is toggled exactly when a sprite bit of 1 covers it, with
per-pixel wrap-around and the origin taken modulo 64 and 32 from the old V[x] and V[y]; VF is 1 exactly when a covered pixel
was on. Height 0 touches no memory. It rests on the spec's own choices D23 (bit 7 leftmost), D10 (origin before VF) and D5 (the
fault). -/
def Obligations.DrawTogglesCoveredPixels : Prop :=
  ∀ (x y : Reg) (n : Fin 16) (s : State),
    DecodesTo (0xD#4 ++ regBits x ++ regBits y ++ regBits n) (.drw x y n) ∧
    ((n.val = 0 ∨ s.idx.toNat + n.val - 1 ≤ 0xFFF) → ∃ t, exec (.drw x y n) s = .next t ∧
      (∀ r c, t.pixel r c = true ↔ ¬ (s.pixel r c = true ↔ SpriteCovers s x y n.val r c)) ∧
      ((∃ r c, s.pixel r c = true ∧ SpriteCovers s x y n.val r c) → t.reg vf = 1) ∧
      ((¬ ∃ r c, s.pixel r c = true ∧ SpriteCovers s x y n.val r c) → t.reg vf = 0) ∧
      FrameBut (fun p => p = .reg vf ∨ ∃ r c, p = .pixel r c) s t) ∧
    (1 ≤ n.val → s.idx.toNat + n.val - 1 > 0xFFF → exec (.drw x y n) s = .fault .memoryOutOfRange)

/-- Drawing the same sprite again at the same origin restores the display, and VF is then 1 exactly when the sprite covers
a pixel that was off before the first draw (the source's example of section 8; on D23, D10). -/
def Obligations.DrawTwiceRestoresDisplay : Prop :=
  ∀ (x y : Reg) (n : Fin 16) (s t : State), exec (.drw x y n) s = .next t → t.reg x = s.reg x → t.reg y = s.reg y →
    ∃ u, exec (.drw x y n) t = .next u ∧ (∀ r c, u.pixel r c = s.pixel r c) ∧
      (u.reg vf = 1 ↔ ∃ r c, s.pixel r c = false ∧ SpriteCovers s x y n.val r c)

/-! ### Keypad and timers (45_keypad_timers.md) -/

/-- SKP and SKNP (R260, R261, R262): skip on the level of the key numbered Vx; above 0xF they fault. The fault and the level
reading are the spec's own choices D11 and D13. -/
def Obligations.KeySkipsReadTheKey : Prop :=
  ∀ (x : Reg) (s : State),
    DecodesTo (0xE#4 ++ regBits x ++ 0x9E#8) (.skp x) ∧ DecodesTo (0xE#4 ++ regBits x ++ 0xA1#8) (.sknp x) ∧
    (∀ k : Key, (s.reg x).toNat = k.val →
      (∃ t, exec (.skp x) s = .next t ∧ t.pc = (if s.key k then s.pc + 2 else s.pc) ∧ Frame [.pc] s t) ∧
      (∃ t, exec (.sknp x) s = .next t ∧ t.pc = (if s.key k then s.pc else s.pc + 2) ∧ Frame [.pc] s t)) ∧
    ((s.reg x).toNat > 0xF → exec (.skp x) s = .fault .keyOutOfRange ∧ exec (.sknp x) s = .fault .keyOutOfRange)

/-- LD Vx, K (R264, R265): with no key held pc goes back by 2 and nothing else changes; else V[x] is some held key, which one
being a free choice (D12; log 5; level reading: the spec's own choice D13). -/
def Obligations.WaitForKeyStoresAHeldKey : Prop :=
  ∀ (x : Reg) (s : State), DecodesTo (0xF#4 ++ regBits x ++ 0x0A#8) (.ldVxK x) ∧
    ((∀ k, s.key k = false) → ∃ t, exec (.ldVxK x) s = .next t ∧ t.pc = s.pc - 2 ∧ Frame [.pc] s t) ∧
    ((∃ k, s.key k = true) → ∃ t, exec (.ldVxK x) s = .next t ∧
      (∃ k, s.key k = true ∧ (t.reg x).toNat = k.val) ∧ t.draws = s.draws + 1 ∧ Frame [.reg x, .draws] s t)

/-- A step of the wait with no key held leaves the whole state as it was, so the same word is fetched again (R264, R268). -/
def Obligations.WaitingStepChangesNothing : Prop :=
  ∀ (s : State) (x : Reg), s.pc.toNat ≤ 0xFFE →
    decode s.params.looseSkipDecode (s.fetch16 s.pc.toNat) = .instr (.ldVxK x) → (∀ k, s.key k = false) →
    step s = .next s ∧ stepResult s = .ok

/-- R263, R266: reading and setting the delay timer. -/
def Obligations.DelayTimerMoves : Prop :=
  ∀ (x : Reg) (s : State),
    DecodesTo (0xF#4 ++ regBits x ++ 0x07#8) (.ldVxDt x) ∧ DecodesTo (0xF#4 ++ regBits x ++ 0x15#8) (.ldDtVx x) ∧
    (∃ t, exec (.ldVxDt x) s = .next t ∧ t.reg x = s.dt ∧ Frame [.reg x] s t) ∧
    (∃ t, exec (.ldDtVx x) s = .next t ∧ t.dt = s.reg x ∧ Frame [.dt] s t)

/-- LD ST, Vx (R267) and the tone it gives at once (R46; the form of the tone signal is the spec's own choice D25). -/
def Obligations.SoundTimerDrivesTone : Prop :=
  ∀ (x : Reg) (s : State), DecodesTo (0xF#4 ++ regBits x ++ 0x18#8) (.ldStVx x) ∧
    (∃ t, exec (.ldStVx x) s = .next t ∧ t.st = s.reg x ∧ (tone t = true ↔ (s.reg x).toNat ≠ 0) ∧ Frame [.st] s t) ∧
    (s.st = 1 → tone s = true ∧ tone (tickTimers s) = false)

/-- R130: each timer goes down by 1 when above 0, without underflow, and nothing else changes. -/
def Obligations.TickTimersCountsDown : Prop :=
  ∀ s : State,
    (tickTimers s).dt.toNat = (if s.dt.toNat > 0 then s.dt.toNat - 1 else 0) ∧
    (tickTimers s).st.toNat = (if s.st.toNat > 0 then s.st.toNat - 1 else 0) ∧ Frame [.dt, .st] s (tickTimers s)

/-! ### The other ports (10_state.md section 14, 40_cycle.md section 3, 70_reset_and_hazards.md section 1) -/

/-- load (R132, R133): a ROM of at most 3584 bytes is copied from 0x200 and nothing else changes; a longer one fails and changes
nothing. What load leaves alone is the spec's own choice D26. -/
def Obligations.LoadCopiesRom : Prop :=
  ∀ (rom : List Byte) (s : State),
    (rom.length ≤ 3584 → ∃ t, transact s (.load rom) = (t, .loaded) ∧
      (∀ (k : Nat) (h : k < rom.length), t.readByte (0x200 + k) = rom[k]) ∧
      FrameBut (fun p => ∃ k, k < rom.length ∧ p = .byte (0x200 + k)) s t) ∧
    (rom.length > 3584 → transact s (.load rom) = (s, .oversizeROM))

/-- reset (R330, R38), from any state and any font: I and SP are 0 by the spec's own choice D21; the parameters stay (log 1). -/
def Obligations.ResetEstablishesInitialState : Prop :=
  ∀ s : State, transact s .reset = (resetPort s, .done) ∧ (resetPort s).pc.toNat = 0x200 ∧
    (∀ r, (resetPort s).reg r = 0) ∧ (resetPort s).idx = 0 ∧ (∀ j, (resetPort s).slot j = 0) ∧
    (resetPort s).sp.val = 0 ∧ (∀ k, (resetPort s).key k = false) ∧ (∀ r c, (resetPort s).pixel r c = false) ∧
    (resetPort s).dt = 0 ∧ (resetPort s).st = 0 ∧ (resetPort s).params = s.params ∧
    (∀ (a : Nat) (h : a < 80), (resetPort s).readByte a = s.params.font[a]) ∧
    (∀ a, 80 ≤ a → a < 4096 → (resetPort s).readByte a = 0)

/-- key_set (R45) writes the one key it names, and no step writes a key. An index above 15 gives RangeError and no change:
that clause is the model's choice (log 24), since the spec names no result there. -/
def Obligations.KeySetWritesOneKey : Prop :=
  (∀ (k : Key) (b : Bool) (s : State), ∃ t, transact s (.keySet k.val b) = (t, .done) ∧ t.key k = b ∧ Frame [.key k] s t) ∧
  (∀ (s t : State) (k : Key), step s = .next t → t.key k = s.key k) ∧
  ∀ (n : Nat) (b : Bool) (s : State), n > 15 → transact s (.keySet n b) = (s, .rangeError)

/-- Mutators (R48; the spec's own choice D27): a request in range writes the element it names and nothing else, and reading
it back gives the value; one out of range is rejected with RangeError and changes nothing. -/
def Obligations.MutatorsCheckTheirRange : Prop :=
  ∀ (e : Mutable) (n : Nat) (s : State),
    (e.InRange n → ∃ t, transact s (.mutate e n) = (t, .done) ∧ peek e.element t = some n ∧ FrameBut e.Names s t) ∧
    (¬ e.InRange n → transact s (.mutate e n) = (s, .rangeError))

/-- Reads (R46 to R48): an accessor in range gives the element it names, one out of range RangeError, and the display is
row-major; no read changes the state. The form of the tone signal is the spec's own choice D25; RangeError of a read: log 24. -/
def Obligations.ReadsReturnTheirElement : Prop :=
  ∀ s : State, (∀ e, (transact s (.read e)).1 = s) ∧
    (∀ (r : Fin 32) (c : Fin 64) (h : r.val * 64 + c.val < 2048),
      transact s (.read (.pixel r.val c.val)) = (s, .value (if s.pixel r c then 1 else 0)) ∧
      displayElement s ⟨r.val * 64 + c.val, h⟩ = s.pixel r c) ∧
    (∀ i : Reg, transact s (.read (.reg i.val)) = (s, .value (s.reg i).toNat)) ∧
    (∀ j : Fin 16, transact s (.read (.slot j.val)) = (s, .value (s.slot j).toNat)) ∧
    (∀ k : Key, transact s (.read (.key k.val)) = (s, .value (if s.key k then 1 else 0))) ∧
    (∀ a, a ≤ 0xFFF → transact s (.read (.mem a)) = (s, .value (s.readByte a).toNat)) ∧
    transact s (.read .pc) = (s, .value s.pc.toNat) ∧ transact s (.read .idx) = (s, .value s.idx.toNat) ∧
    transact s (.read .sp) = (s, .value s.sp.val) ∧
    transact s (.read .dt) = (s, .value s.dt.toNat) ∧ transact s (.read .st) = (s, .value s.st.toNat) ∧
    (∀ n, 16 ≤ n → transact s (.read (.reg n)) = (s, .rangeError) ∧ transact s (.read (.slot n)) = (s, .rangeError) ∧
      transact s (.read (.key n)) = (s, .rangeError)) ∧
    (∀ a, a > 0xFFF → transact s (.read (.mem a)) = (s, .rangeError)) ∧
    (∀ r c, 32 ≤ r ∨ 64 ≤ c → transact s (.read (.pixel r c)) = (s, .rangeError)) ∧
    ∃ b, transact s .readTone = (s, .toneLevel b) ∧ (b = true ↔ s.st.toNat ≠ 0)

/-- R341: without a load every step from reset meets the unknown word 0x0000 until pc = 0x1000, where the fetch faults (it rests on
the spec's own choices D14 and D6). -/
def Obligations.StepsWithoutLoadClimbToTheEnd : Prop :=
  ∀ p : Params, (∀ k, k ≤ 1792 → ∃ t, Host.Core.run Sys2Proof.core k (State.resetWith p) = .next t ∧
      t.pc.toNat = 0x200 + 2 * k ∧ Frame [.pc] (State.resetWith p) t ∧ (k < 1792 → stepResult t = .unknown 0x0000)) ∧
    Host.Core.run Sys2Proof.core 1793 (State.resetWith p) = .fault .fetchOutOfRange

/-! ### Memory (20_memory.md) -/

/-- Every read of MEM[a] gives the last byte written there, and a write leaves every other address alone (R69); a write in the
address space keeps the canonical form (log 9). -/
def Obligations.ReadAfterWriteIsLastWrite : Prop :=
  ∀ (s : State) (a z : Nat) (b : Byte),
    (s.writeByte a b).readByte a = b ∧ (z ≠ a → (s.writeByte a b).readByte z = s.readByte z) ∧
    (a < 4096 → MemoryCanonical s → MemoryCanonical (s.writeByte a b))

/-- A word stored where the pc points is what the next fetch reads, with no fence (R71, R62, R351): for LD [I], Vx the registers
V[r] and V[r+1] when pc = I + r; for LD B, Vx the hundreds and tens when pc = I, the tens and ones when pc = I + 1; and
after either, wherever pc is, the two bytes as they stand in memory after the store. -/
def Obligations.StoredWordIsFetchedNext : Prop :=
  (∀ (x r q : Reg) (s t : State), exec (.ldMemVx x) s = .next t → q ≤ x → q.val = r.val + 1 →
    s.pc.toNat = s.idx.toNat + r.val → t.fetch = .ok (s.reg r ++ s.reg q)) ∧
  (∀ (x : Reg) (s t : State), exec (.ldBVx x) s = .next t →
    (s.pc.toNat = s.idx.toNat → ∃ w, t.fetch = .ok w ∧
      w.toNat = (s.reg x).toNat / 100 * 256 + (s.reg x).toNat / 10 % 10) ∧
    (s.pc.toNat = s.idx.toNat + 1 → ∃ w, t.fetch = .ok w ∧
      w.toNat = (s.reg x).toNat / 10 % 10 * 256 + (s.reg x).toNat % 10)) ∧
  ∀ (x : Reg) (s t : State), exec (.ldMemVx x) s = .next t ∨ exec (.ldBVx x) s = .next t → s.pc.toNat ≤ 0xFFE →
    ∃ w, t.fetch = .ok w ∧ w.toNat = (t.readByte s.pc.toNat).toNat * 256 + (t.readByte (s.pc.toNat + 1)).toNat

/-- No step changes a byte of the font area 0x000..0x04F (R66; the write check is the spec's own choice D8). -/
def Obligations.FontAreaNeverChanges : Prop :=
  ∀ (s t : State) (a : Nat), step s = .next t → a < 80 → t.readByte a = s.readByte a

/-! ### The whole machine -/

/-- No instruction is refused: each gives a next state or a MachineFault. -/
def Obligations.NoInstructionIsRefused : Prop :=
  ∀ (i : Instr) (s : State) (r : Refusal), exec i s ≠ .refused r ∧ step s ≠ .refused r

/-- A step faults with a kind exactly under that kind's condition in the table of R301 (the conditions are the spec's own choices
D2, D3, D5, D6, D8, D11, and their order D18). -/
def Obligations.StepFaultsExactlyWhenSpecified : Prop :=
  ∀ (s : State) (k : Fault), step s = .fault k ↔ StepFaults s k

/-- A fault depends only on pc, SP, I, V and the word at pc, so that it repeats until one of them changes; ticks and keys
change none of them (R303). The fault conditions are the spec's own choices D2, D3, D5, D6, D8 and D11. -/
def Obligations.FaultRepeatsUntilStateChanges : Prop :=
  ∀ (s t : State) (k : Fault), step s = .fault k →
    (t.pc = s.pc → t.sp = s.sp → t.idx = s.idx → (∀ r, t.reg r = s.reg r) → t.params = s.params →
      t.fetch16 t.pc.toNat = s.fetch16 s.pc.toNat → step t = .fault k) ∧
    step (tickTimers s) = .fault k ∧ (∀ n b u, keySet n b s = some u → step u = .fault k)

/-- What each instruction may write (R22, R25, R27 to R30, R60, R249): every other part of the state is as before, part by part.
On entry pc is already advanced, and it changes again only by a jump, a call, a return, a taken skip or a wait. VF is the
subject of FlagRegisterWriters. The level of the keys in a taken SKP or SKNP and in a wait is the spec's own choice D13 (log 17);
`params` and `draws` are the model's own fields (logs 1, 6). -/
def Obligations.OnlyNamedInstructionsWrite : Prop :=
  ∀ (i : Instr) (s t : State), exec i s = .next t →
    (∀ r, r ≠ vf → t.reg r ≠ s.reg r → WritesRegister r i) ∧
    (t.idx ≠ s.idx → (∃ nnn, i = .ldI nnn) ∨ (∃ x, i = .addIVx x) ∨ ∃ x, i = .ldFVx x) ∧
    ((t.sp ≠ s.sp ∨ ∃ j, t.slot j ≠ s.slot j) → (∃ nnn, i = .call nnn) ∨ i = .ret) ∧
    ((∃ r c, t.pixel r c ≠ s.pixel r c) → i = .cls ∨ ∃ x y n, i = .drw x y n) ∧
    (t.dt ≠ s.dt → ∃ x, i = .ldDtVx x) ∧
    (t.st ≠ s.st → ∃ x, i = .ldStVx x) ∧
    ((∃ a, t.readByte a ≠ s.readByte a) → (∃ x, i = .ldBVx x) ∨ ∃ x, i = .ldMemVx x) ∧
    (t.pc ≠ s.pc → (∃ nnn, i = .jp nnn) ∨ (∃ nnn, i = .call nnn) ∨ i = .ret ∨ (∃ nnn, i = .jpV0 nnn) ∨ SkipTaken s i ∨
      ((∃ x, i = .ldVxK x) ∧ ∀ k, s.key k = false)) ∧
    (t.draws ≠ s.draws → (∃ x nn, i = .rnd x nn) ∨ ((∃ x, i = .ldVxK x) ∧ ∃ k, s.key k = true)) ∧
    (∀ k, t.key k = s.key k) ∧ t.params = s.params

/-- VF (R23): it changes only as the flag of the six flag-writing instructions or as an ordinary destination, and the
six leave 0 or 1 in it. With x = 0xF it rests on the spec's own choice D9 (log 15); that ADD I, Vx leaves VF alone is the spec's
own choice D29 (log 21). -/
def Obligations.FlagRegisterWriters : Prop :=
  ∀ (i : Instr) (s t : State), exec i s = .next t →
    (t.reg vf ≠ s.reg vf → WritesFlag i ∨ WritesRegister vf i) ∧ (WritesFlag i → t.reg vf = 0 ∨ t.reg vf = 1)

/-- A run answers its transactions in order, one result each, and ends at its first Fault (R303, R318; the spec's own choices D1
and D32): a run of one transaction is that transaction; after transactions none of which is a Fault the run goes on from the state
they left, with their results first; after transactions one of which is a Fault nothing more is answered or changed. So no result
before the last is a Fault, and there is one result for every transaction unless a Fault ended the run. -/
def Obligations.RunEndsAtFirstFault : Prop :=
  (∀ s, runTransactions [] s = (s, [])) ∧
  (∀ t s, runTransactions [t] s = ((transact s t).1, [(transact s t).2])) ∧
  (∀ ts us s, (∀ r ∈ (runTransactions ts s).2, r.isFault = false) →
    runTransactions (ts ++ us) s =
      ((runTransactions us (runTransactions ts s).1).1,
        (runTransactions ts s).2 ++ (runTransactions us (runTransactions ts s).1).2)) ∧
  (∀ ts us s, (∃ r ∈ (runTransactions ts s).2, r.isFault = true) → runTransactions (ts ++ us) s = runTransactions ts s) ∧
  ∀ ts s, (∀ r ∈ (runTransactions ts s).2.dropLast, r.isFault = false) ∧
    ((∀ r ∈ (runTransactions ts s).2, r.isFault = false) → (runTransactions ts s).2.length = ts.length)

/-- Every step keeps the invariant: the memory stays canonical (log 9), and, as R26 says of runs without mutators, pc stays at
most 0x10FE and every stack slot at most 0x1000. -/
def Obligations.StepKeepsInvariant : Prop :=
  ∀ s t : State, Invariant s → step s = .next t → Invariant t

/-- The invariant holds at reset, under every font. -/
def Obligations.ResetMeetsInvariant : Prop :=
  Invariant State.reset ∧ ∀ p, Invariant (State.resetWith p)

/-- Every state a contract run reaches (R340) meets the invariant, and its font area still holds P_FONT (R66). The write check is
the spec's own choice D8 (log 14), the canonical form of the memory the model's (log 9). -/
def Obligations.ContractRunsKeepInvariantAndFont : Prop :=
  ∀ s : State, ContractReachable s → Invariant s ∧ ∀ (a : Nat) (h : a < 80), s.readByte a = s.params.font[a]

/-- The pseudo-instructions of the spec's notation (R102; the spec's own choice D28). -/
def Obligations.PseudoInstructionsPlaceBytes : Prop :=
  (∀ x : Reg, assemble [.shrOne x] = [0x8#4 ++ regBits x, 0x06] ∧ assemble [.shlOne x] = [0x8#4 ++ regBits x, 0x0E]) ∧
  (∀ b : Byte, assemble [.db b] = [b]) ∧
  (∀ hi lo : Byte, assemble [.dw (hi ++ lo)] = [hi, lo]) ∧ assemble [.dw 0x1234] = [0x12, 0x34]
end

