-- ==== Sys2Proof/Laws/Decode.lean ====
section
/-! SUPPORT. The fields of a word put together from its parts (30_encoding.md R91, R92), and what each decoder
can answer. -/

namespace Sys2Proof

/-! ### A slice of a concatenation -/

theorem extract_low {a b : Nat} (u : BitVec a) (v : BitVec b) {k w : Nat} (h : k + w ≤ b) :
    (u ++ v).extractLsb' k w = v.extractLsb' k w := by
  apply BitVec.eq_of_getLsbD_eq
  intro i hi
  have : k + i < b := by omega
  simp [BitVec.getLsbD_append, this]

theorem extract_up {a b : Nat} (u : BitVec a) (v : BitVec b) {k w : Nat} (h : b ≤ k) :
    (u ++ v).extractLsb' k w = u.extractLsb' (k - b) w := by
  apply BitVec.eq_of_getLsbD_eq
  intro i hi
  have : ¬ k + i < b := by omega
  have e : k + i - b = k - b + i := by omega
  simp [BitVec.getLsbD_append, this, e]

theorem extract_all {a : Nat} (u : BitVec a) : u.extractLsb' 0 a = u := by
  apply BitVec.eq_of_getLsbD_eq
  intro i hi
  simp [hi]

/-! ### The fields of the three formats -/

@[simp] theorem regBits_toFin (r : Reg) : (regBits r).toFin = r := rfl

section
variable (g : BitVec 4) (x y : Reg) (n : BitVec 4) (nn : Byte) (nnn : Addr12)

@[simp] theorem groupOf_wordXYN : groupOf (wordXYN g x y n) = g.toNat := by
  unfold groupOf wordXYN
  rw [extract_up _ _ (by omega), extract_up _ _ (by omega), extract_up _ _ (by omega)]
  exact congrArg BitVec.toNat (extract_all _)

@[simp] theorem xOf_wordXYN : xOf (wordXYN g x y n) = x := by
  unfold xOf wordXYN
  rw [extract_up _ _ (by omega), extract_up _ _ (by omega), extract_low _ _ (by omega)]
  exact congrArg BitVec.toFin (extract_all _)

@[simp] theorem yOf_wordXYN : yOf (wordXYN g x y n) = y := by
  unfold yOf wordXYN
  rw [extract_up _ _ (by omega), extract_low _ _ (by omega)]
  exact congrArg BitVec.toFin (extract_all _)

@[simp] theorem nOf_wordXYN : nOf (wordXYN g x y n) = n.toFin := by
  unfold nOf wordXYN
  rw [extract_low _ _ (by omega)]
  exact congrArg BitVec.toFin (extract_all _)

@[simp] theorem groupOf_wordXNN : groupOf (wordXNN g x nn) = g.toNat := by
  unfold groupOf wordXNN
  rw [extract_up _ _ (by omega), extract_up _ _ (by omega)]
  exact congrArg BitVec.toNat (extract_all _)

@[simp] theorem xOf_wordXNN : xOf (wordXNN g x nn) = x := by
  unfold xOf wordXNN
  rw [extract_up _ _ (by omega), extract_low _ _ (by omega)]
  exact congrArg BitVec.toFin (extract_all _)

@[simp] theorem nnOf_wordXNN : nnOf (wordXNN g x nn) = nn := by
  unfold nnOf wordXNN
  rw [extract_low _ _ (by omega)]
  exact congrArg id (extract_all _)

@[simp] theorem groupOf_wordNNN : groupOf (wordNNN g nnn) = g.toNat := by
  unfold groupOf wordNNN
  rw [extract_up _ _ (by omega)]
  exact congrArg BitVec.toNat (extract_all _)

@[simp] theorem nnnOf_wordNNN : nnnOf (wordNNN g nnn) = nnn := by
  unfold nnnOf wordNNN
  rw [extract_low _ _ (by omega)]
  exact congrArg id (extract_all _)

end

/-! ### A word is its fields -/

theorem wordXYN_fields (w : Word) : wordXYN (w.extractLsb' 12 4) (xOf w) (yOf w) (w.extractLsb' 0 4) = w := by
  apply BitVec.eq_of_getLsbD_eq
  intro i hi
  simp only [wordXYN, regBits, xOf, yOf, BitVec.ofFin_toFin, BitVec.getLsbD_append, BitVec.getLsbD_extractLsb']
  split
  · simp_all
  · split
    · have : 4 + (i - 4) = i := by omega
      simp_all
    · split
      · have : 8 + (i - 4 - 4) = i := by omega
        simp_all
      · have : 12 + (i - 4 - 4 - 4) = i := by omega
        have h : i - 4 - 4 - 4 < 4 := by omega
        simp_all

theorem wordXNN_fields (w : Word) : wordXNN (w.extractLsb' 12 4) (xOf w) (nnOf w) = w := by
  apply BitVec.eq_of_getLsbD_eq
  intro i hi
  simp only [wordXNN, regBits, xOf, nnOf, BitVec.ofFin_toFin, BitVec.getLsbD_append, BitVec.getLsbD_extractLsb']
  split
  · simp_all
  · split
    · have : 8 + (i - 8) = i := by omega
      simp_all
    · have : 12 + (i - 8 - 4) = i := by omega
      have h : i - 8 - 4 < 4 := by omega
      simp_all

theorem wordNNN_fields (w : Word) : wordNNN (w.extractLsb' 12 4) (nnnOf w) = w := by
  apply BitVec.eq_of_getLsbD_eq
  intro i hi
  simp only [wordNNN, nnnOf, BitVec.getLsbD_append, BitVec.getLsbD_extractLsb']
  split
  · simp_all
  · have : 12 + (i - 12) = i := by omega
    have h : i - 12 < 4 := by omega
    simp_all

/-- The two bytes of a word, put back together, are the word (R62). -/
@[simp] theorem wordOfBytes_bytes (w : Word) : wordOfBytes (highByte w) (lowByte w) = w := by
  apply BitVec.eq_of_getLsbD_eq
  intro i hi
  simp only [wordOfBytes, highByte, lowByte, BitVec.getLsbD_append, BitVec.getLsbD_extractLsb']
  split
  · simp_all
  · have : 8 + (i - 8) = i := by omega
    have h : i - 8 < 8 := by omega
    simp_all

/-- An unknown opcode names its own word (R96). -/
theorem decode_unknown_word {loose : Bool} {w u : Word} (h : decode loose w = .unknown u) : u = w := by
  unfold decode decodeGroup8 decodeGroupE decodeGroupF at h
  repeat' split at h
  all_goals simp_all

end Sys2Proof
end

