-- ==== Sys2Proof/Laws/State.lean ====
section
/-! SUPPORT. One lemma per field and per accessor for each update of `State`, so that no later proof unfolds a
record update. -/

namespace Sys2Proof.Machine

variable (s : State)

/-! ### setReg -/

@[simp] theorem State.setReg_mem (i : Reg) (b : Byte) : (s.setReg i b).mem = s.mem := rfl
@[simp] theorem State.setReg_pc (i : Reg) (b : Byte) : (s.setReg i b).pc = s.pc := rfl
@[simp] theorem State.setReg_v (i : Reg) (b : Byte) : (s.setReg i b).v = s.v.set i b := rfl
@[simp] theorem State.setReg_idx (i : Reg) (b : Byte) : (s.setReg i b).idx = s.idx := rfl
@[simp] theorem State.setReg_stack (i : Reg) (b : Byte) : (s.setReg i b).stack = s.stack := rfl
@[simp] theorem State.setReg_sp (i : Reg) (b : Byte) : (s.setReg i b).sp = s.sp := rfl
@[simp] theorem State.setReg_keys (i : Reg) (b : Byte) : (s.setReg i b).keys = s.keys := rfl
@[simp] theorem State.setReg_disp (i : Reg) (b : Byte) : (s.setReg i b).disp = s.disp := rfl
@[simp] theorem State.setReg_dt (i : Reg) (b : Byte) : (s.setReg i b).dt = s.dt := rfl
@[simp] theorem State.setReg_st (i : Reg) (b : Byte) : (s.setReg i b).st = s.st := rfl
@[simp] theorem State.setReg_params (i : Reg) (b : Byte) : (s.setReg i b).params = s.params := rfl
@[simp] theorem State.setReg_draws (i : Reg) (b : Byte) : (s.setReg i b).draws = s.draws := rfl
@[simp] theorem State.setReg_slot (i : Reg) (b : Byte) (j : Fin 16) : (s.setReg i b).slot j = s.slot j := rfl
@[simp] theorem State.setReg_key (i : Reg) (b : Byte) (q : Key) : (s.setReg i b).key q = s.key q := rfl
@[simp] theorem State.setReg_pixel (i : Reg) (b : Byte) (r : Fin 32) (c : Fin 64) : (s.setReg i b).pixel r c = s.pixel r c := rfl
@[simp] theorem State.setReg_readByte (i : Reg) (b : Byte) (z : Nat) : (s.setReg i b).readByte z = s.readByte z := rfl

/-! ### setPc -/

@[simp] theorem State.setPc_mem (w : Word) : (s.setPc w).mem = s.mem := rfl
@[simp] theorem State.setPc_pc (w : Word) : (s.setPc w).pc = w := rfl
@[simp] theorem State.setPc_v (w : Word) : (s.setPc w).v = s.v := rfl
@[simp] theorem State.setPc_idx (w : Word) : (s.setPc w).idx = s.idx := rfl
@[simp] theorem State.setPc_stack (w : Word) : (s.setPc w).stack = s.stack := rfl
@[simp] theorem State.setPc_sp (w : Word) : (s.setPc w).sp = s.sp := rfl
@[simp] theorem State.setPc_keys (w : Word) : (s.setPc w).keys = s.keys := rfl
@[simp] theorem State.setPc_disp (w : Word) : (s.setPc w).disp = s.disp := rfl
@[simp] theorem State.setPc_dt (w : Word) : (s.setPc w).dt = s.dt := rfl
@[simp] theorem State.setPc_st (w : Word) : (s.setPc w).st = s.st := rfl
@[simp] theorem State.setPc_params (w : Word) : (s.setPc w).params = s.params := rfl
@[simp] theorem State.setPc_draws (w : Word) : (s.setPc w).draws = s.draws := rfl
@[simp] theorem State.setPc_reg (w : Word) (r : Reg) : (s.setPc w).reg r = s.reg r := rfl
@[simp] theorem State.setPc_slot (w : Word) (j : Fin 16) : (s.setPc w).slot j = s.slot j := rfl
@[simp] theorem State.setPc_key (w : Word) (q : Key) : (s.setPc w).key q = s.key q := rfl
@[simp] theorem State.setPc_pixel (w : Word) (r : Fin 32) (c : Fin 64) : (s.setPc w).pixel r c = s.pixel r c := rfl
@[simp] theorem State.setPc_readByte (w : Word) (z : Nat) : (s.setPc w).readByte z = s.readByte z := rfl

/-! ### setIdx -/

@[simp] theorem State.setIdx_mem (w : Word) : (s.setIdx w).mem = s.mem := rfl
@[simp] theorem State.setIdx_pc (w : Word) : (s.setIdx w).pc = s.pc := rfl
@[simp] theorem State.setIdx_v (w : Word) : (s.setIdx w).v = s.v := rfl
@[simp] theorem State.setIdx_idx (w : Word) : (s.setIdx w).idx = w := rfl
@[simp] theorem State.setIdx_stack (w : Word) : (s.setIdx w).stack = s.stack := rfl
@[simp] theorem State.setIdx_sp (w : Word) : (s.setIdx w).sp = s.sp := rfl
@[simp] theorem State.setIdx_keys (w : Word) : (s.setIdx w).keys = s.keys := rfl
@[simp] theorem State.setIdx_disp (w : Word) : (s.setIdx w).disp = s.disp := rfl
@[simp] theorem State.setIdx_dt (w : Word) : (s.setIdx w).dt = s.dt := rfl
@[simp] theorem State.setIdx_st (w : Word) : (s.setIdx w).st = s.st := rfl
@[simp] theorem State.setIdx_params (w : Word) : (s.setIdx w).params = s.params := rfl
@[simp] theorem State.setIdx_draws (w : Word) : (s.setIdx w).draws = s.draws := rfl
@[simp] theorem State.setIdx_reg (w : Word) (r : Reg) : (s.setIdx w).reg r = s.reg r := rfl
@[simp] theorem State.setIdx_slot (w : Word) (j : Fin 16) : (s.setIdx w).slot j = s.slot j := rfl
@[simp] theorem State.setIdx_key (w : Word) (q : Key) : (s.setIdx w).key q = s.key q := rfl
@[simp] theorem State.setIdx_pixel (w : Word) (r : Fin 32) (c : Fin 64) : (s.setIdx w).pixel r c = s.pixel r c := rfl
@[simp] theorem State.setIdx_readByte (w : Word) (z : Nat) : (s.setIdx w).readByte z = s.readByte z := rfl

/-! ### setDt -/

@[simp] theorem State.setDt_mem (b : Byte) : (s.setDt b).mem = s.mem := rfl
@[simp] theorem State.setDt_pc (b : Byte) : (s.setDt b).pc = s.pc := rfl
@[simp] theorem State.setDt_v (b : Byte) : (s.setDt b).v = s.v := rfl
@[simp] theorem State.setDt_idx (b : Byte) : (s.setDt b).idx = s.idx := rfl
@[simp] theorem State.setDt_stack (b : Byte) : (s.setDt b).stack = s.stack := rfl
@[simp] theorem State.setDt_sp (b : Byte) : (s.setDt b).sp = s.sp := rfl
@[simp] theorem State.setDt_keys (b : Byte) : (s.setDt b).keys = s.keys := rfl
@[simp] theorem State.setDt_disp (b : Byte) : (s.setDt b).disp = s.disp := rfl
@[simp] theorem State.setDt_dt (b : Byte) : (s.setDt b).dt = b := rfl
@[simp] theorem State.setDt_st (b : Byte) : (s.setDt b).st = s.st := rfl
@[simp] theorem State.setDt_params (b : Byte) : (s.setDt b).params = s.params := rfl
@[simp] theorem State.setDt_draws (b : Byte) : (s.setDt b).draws = s.draws := rfl
@[simp] theorem State.setDt_reg (b : Byte) (r : Reg) : (s.setDt b).reg r = s.reg r := rfl
@[simp] theorem State.setDt_slot (b : Byte) (j : Fin 16) : (s.setDt b).slot j = s.slot j := rfl
@[simp] theorem State.setDt_key (b : Byte) (q : Key) : (s.setDt b).key q = s.key q := rfl
@[simp] theorem State.setDt_pixel (b : Byte) (r : Fin 32) (c : Fin 64) : (s.setDt b).pixel r c = s.pixel r c := rfl
@[simp] theorem State.setDt_readByte (b : Byte) (z : Nat) : (s.setDt b).readByte z = s.readByte z := rfl

/-! ### setSt -/

@[simp] theorem State.setSt_mem (b : Byte) : (s.setSt b).mem = s.mem := rfl
@[simp] theorem State.setSt_pc (b : Byte) : (s.setSt b).pc = s.pc := rfl
@[simp] theorem State.setSt_v (b : Byte) : (s.setSt b).v = s.v := rfl
@[simp] theorem State.setSt_idx (b : Byte) : (s.setSt b).idx = s.idx := rfl
@[simp] theorem State.setSt_stack (b : Byte) : (s.setSt b).stack = s.stack := rfl
@[simp] theorem State.setSt_sp (b : Byte) : (s.setSt b).sp = s.sp := rfl
@[simp] theorem State.setSt_keys (b : Byte) : (s.setSt b).keys = s.keys := rfl
@[simp] theorem State.setSt_disp (b : Byte) : (s.setSt b).disp = s.disp := rfl
@[simp] theorem State.setSt_dt (b : Byte) : (s.setSt b).dt = s.dt := rfl
@[simp] theorem State.setSt_st (b : Byte) : (s.setSt b).st = b := rfl
@[simp] theorem State.setSt_params (b : Byte) : (s.setSt b).params = s.params := rfl
@[simp] theorem State.setSt_draws (b : Byte) : (s.setSt b).draws = s.draws := rfl
@[simp] theorem State.setSt_reg (b : Byte) (r : Reg) : (s.setSt b).reg r = s.reg r := rfl
@[simp] theorem State.setSt_slot (b : Byte) (j : Fin 16) : (s.setSt b).slot j = s.slot j := rfl
@[simp] theorem State.setSt_key (b : Byte) (q : Key) : (s.setSt b).key q = s.key q := rfl
@[simp] theorem State.setSt_pixel (b : Byte) (r : Fin 32) (c : Fin 64) : (s.setSt b).pixel r c = s.pixel r c := rfl
@[simp] theorem State.setSt_readByte (b : Byte) (z : Nat) : (s.setSt b).readByte z = s.readByte z := rfl

/-! ### setKey -/

@[simp] theorem State.setKey_mem (k : Key) (b : Bool) : (s.setKey k b).mem = s.mem := rfl
@[simp] theorem State.setKey_pc (k : Key) (b : Bool) : (s.setKey k b).pc = s.pc := rfl
@[simp] theorem State.setKey_v (k : Key) (b : Bool) : (s.setKey k b).v = s.v := rfl
@[simp] theorem State.setKey_idx (k : Key) (b : Bool) : (s.setKey k b).idx = s.idx := rfl
@[simp] theorem State.setKey_stack (k : Key) (b : Bool) : (s.setKey k b).stack = s.stack := rfl
@[simp] theorem State.setKey_sp (k : Key) (b : Bool) : (s.setKey k b).sp = s.sp := rfl
@[simp] theorem State.setKey_keys (k : Key) (b : Bool) : (s.setKey k b).keys = s.keys.set k b := rfl
@[simp] theorem State.setKey_disp (k : Key) (b : Bool) : (s.setKey k b).disp = s.disp := rfl
@[simp] theorem State.setKey_dt (k : Key) (b : Bool) : (s.setKey k b).dt = s.dt := rfl
@[simp] theorem State.setKey_st (k : Key) (b : Bool) : (s.setKey k b).st = s.st := rfl
@[simp] theorem State.setKey_params (k : Key) (b : Bool) : (s.setKey k b).params = s.params := rfl
@[simp] theorem State.setKey_draws (k : Key) (b : Bool) : (s.setKey k b).draws = s.draws := rfl
@[simp] theorem State.setKey_reg (k : Key) (b : Bool) (r : Reg) : (s.setKey k b).reg r = s.reg r := rfl
@[simp] theorem State.setKey_slot (k : Key) (b : Bool) (j : Fin 16) : (s.setKey k b).slot j = s.slot j := rfl
@[simp] theorem State.setKey_pixel (k : Key) (b : Bool) (r : Fin 32) (c : Fin 64) : (s.setKey k b).pixel r c = s.pixel r c := rfl
@[simp] theorem State.setKey_readByte (k : Key) (b : Bool) (z : Nat) : (s.setKey k b).readByte z = s.readByte z := rfl

/-! ### setDisp -/

@[simp] theorem State.setDisp_mem (d : Display) : (s.setDisp d).mem = s.mem := rfl
@[simp] theorem State.setDisp_pc (d : Display) : (s.setDisp d).pc = s.pc := rfl
@[simp] theorem State.setDisp_v (d : Display) : (s.setDisp d).v = s.v := rfl
@[simp] theorem State.setDisp_idx (d : Display) : (s.setDisp d).idx = s.idx := rfl
@[simp] theorem State.setDisp_stack (d : Display) : (s.setDisp d).stack = s.stack := rfl
@[simp] theorem State.setDisp_sp (d : Display) : (s.setDisp d).sp = s.sp := rfl
@[simp] theorem State.setDisp_keys (d : Display) : (s.setDisp d).keys = s.keys := rfl
@[simp] theorem State.setDisp_disp (d : Display) : (s.setDisp d).disp = d := rfl
@[simp] theorem State.setDisp_dt (d : Display) : (s.setDisp d).dt = s.dt := rfl
@[simp] theorem State.setDisp_st (d : Display) : (s.setDisp d).st = s.st := rfl
@[simp] theorem State.setDisp_params (d : Display) : (s.setDisp d).params = s.params := rfl
@[simp] theorem State.setDisp_draws (d : Display) : (s.setDisp d).draws = s.draws := rfl
@[simp] theorem State.setDisp_reg (d : Display) (r : Reg) : (s.setDisp d).reg r = s.reg r := rfl
@[simp] theorem State.setDisp_slot (d : Display) (j : Fin 16) : (s.setDisp d).slot j = s.slot j := rfl
@[simp] theorem State.setDisp_key (d : Display) (q : Key) : (s.setDisp d).key q = s.key q := rfl
@[simp] theorem State.setDisp_readByte (d : Display) (z : Nat) : (s.setDisp d).readByte z = s.readByte z := rfl

/-! ### nextDraw -/

@[simp] theorem State.nextDraw_mem : s.nextDraw.mem = s.mem := rfl
@[simp] theorem State.nextDraw_pc : s.nextDraw.pc = s.pc := rfl
@[simp] theorem State.nextDraw_v : s.nextDraw.v = s.v := rfl
@[simp] theorem State.nextDraw_idx : s.nextDraw.idx = s.idx := rfl
@[simp] theorem State.nextDraw_stack : s.nextDraw.stack = s.stack := rfl
@[simp] theorem State.nextDraw_sp : s.nextDraw.sp = s.sp := rfl
@[simp] theorem State.nextDraw_keys : s.nextDraw.keys = s.keys := rfl
@[simp] theorem State.nextDraw_disp : s.nextDraw.disp = s.disp := rfl
@[simp] theorem State.nextDraw_dt : s.nextDraw.dt = s.dt := rfl
@[simp] theorem State.nextDraw_st : s.nextDraw.st = s.st := rfl
@[simp] theorem State.nextDraw_params : s.nextDraw.params = s.params := rfl
@[simp] theorem State.nextDraw_draws : s.nextDraw.draws = s.draws + 1 := rfl
@[simp] theorem State.nextDraw_reg (r : Reg) : s.nextDraw.reg r = s.reg r := rfl
@[simp] theorem State.nextDraw_slot (j : Fin 16) : s.nextDraw.slot j = s.slot j := rfl
@[simp] theorem State.nextDraw_key (q : Key) : s.nextDraw.key q = s.key q := rfl
@[simp] theorem State.nextDraw_pixel (r : Fin 32) (c : Fin 64) : s.nextDraw.pixel r c = s.pixel r c := rfl
@[simp] theorem State.nextDraw_readByte (z : Nat) : s.nextDraw.readByte z = s.readByte z := rfl

/-! ### writeByte -/

@[simp] theorem State.writeByte_mem (a : Nat) (b : Byte) : (s.writeByte a b).mem = Memory.write s.params s.mem a b := rfl
@[simp] theorem State.writeByte_pc (a : Nat) (b : Byte) : (s.writeByte a b).pc = s.pc := rfl
@[simp] theorem State.writeByte_v (a : Nat) (b : Byte) : (s.writeByte a b).v = s.v := rfl
@[simp] theorem State.writeByte_idx (a : Nat) (b : Byte) : (s.writeByte a b).idx = s.idx := rfl
@[simp] theorem State.writeByte_stack (a : Nat) (b : Byte) : (s.writeByte a b).stack = s.stack := rfl
@[simp] theorem State.writeByte_sp (a : Nat) (b : Byte) : (s.writeByte a b).sp = s.sp := rfl
@[simp] theorem State.writeByte_keys (a : Nat) (b : Byte) : (s.writeByte a b).keys = s.keys := rfl
@[simp] theorem State.writeByte_disp (a : Nat) (b : Byte) : (s.writeByte a b).disp = s.disp := rfl
@[simp] theorem State.writeByte_dt (a : Nat) (b : Byte) : (s.writeByte a b).dt = s.dt := rfl
@[simp] theorem State.writeByte_st (a : Nat) (b : Byte) : (s.writeByte a b).st = s.st := rfl
@[simp] theorem State.writeByte_params (a : Nat) (b : Byte) : (s.writeByte a b).params = s.params := rfl
@[simp] theorem State.writeByte_draws (a : Nat) (b : Byte) : (s.writeByte a b).draws = s.draws := rfl
@[simp] theorem State.writeByte_reg (a : Nat) (b : Byte) (r : Reg) : (s.writeByte a b).reg r = s.reg r := rfl
@[simp] theorem State.writeByte_slot (a : Nat) (b : Byte) (j : Fin 16) : (s.writeByte a b).slot j = s.slot j := rfl
@[simp] theorem State.writeByte_key (a : Nat) (b : Byte) (q : Key) : (s.writeByte a b).key q = s.key q := rfl
@[simp] theorem State.writeByte_pixel (a : Nat) (b : Byte) (r : Fin 32) (c : Fin 64) : (s.writeByte a b).pixel r c = s.pixel r c := rfl

/-! ### writeBytes -/

@[simp] theorem State.writeBytes_mem (a : Nat) (bs : List Byte) : (s.writeBytes a bs).mem = Memory.writeAll s.params s.mem a bs := rfl
@[simp] theorem State.writeBytes_pc (a : Nat) (bs : List Byte) : (s.writeBytes a bs).pc = s.pc := rfl
@[simp] theorem State.writeBytes_v (a : Nat) (bs : List Byte) : (s.writeBytes a bs).v = s.v := rfl
@[simp] theorem State.writeBytes_idx (a : Nat) (bs : List Byte) : (s.writeBytes a bs).idx = s.idx := rfl
@[simp] theorem State.writeBytes_stack (a : Nat) (bs : List Byte) : (s.writeBytes a bs).stack = s.stack := rfl
@[simp] theorem State.writeBytes_sp (a : Nat) (bs : List Byte) : (s.writeBytes a bs).sp = s.sp := rfl
@[simp] theorem State.writeBytes_keys (a : Nat) (bs : List Byte) : (s.writeBytes a bs).keys = s.keys := rfl
@[simp] theorem State.writeBytes_disp (a : Nat) (bs : List Byte) : (s.writeBytes a bs).disp = s.disp := rfl
@[simp] theorem State.writeBytes_dt (a : Nat) (bs : List Byte) : (s.writeBytes a bs).dt = s.dt := rfl
@[simp] theorem State.writeBytes_st (a : Nat) (bs : List Byte) : (s.writeBytes a bs).st = s.st := rfl
@[simp] theorem State.writeBytes_params (a : Nat) (bs : List Byte) : (s.writeBytes a bs).params = s.params := rfl
@[simp] theorem State.writeBytes_draws (a : Nat) (bs : List Byte) : (s.writeBytes a bs).draws = s.draws := rfl
@[simp] theorem State.writeBytes_reg (a : Nat) (bs : List Byte) (r : Reg) : (s.writeBytes a bs).reg r = s.reg r := rfl
@[simp] theorem State.writeBytes_slot (a : Nat) (bs : List Byte) (j : Fin 16) : (s.writeBytes a bs).slot j = s.slot j := rfl
@[simp] theorem State.writeBytes_key (a : Nat) (bs : List Byte) (q : Key) : (s.writeBytes a bs).key q = s.key q := rfl
@[simp] theorem State.writeBytes_pixel (a : Nat) (bs : List Byte) (r : Fin 32) (c : Fin 64) : (s.writeBytes a bs).pixel r c = s.pixel r c := rfl

/-! ### advance -/

@[simp] theorem State.advance_mem : s.advance.mem = s.mem := rfl
@[simp] theorem State.advance_pc : s.advance.pc = s.pc + 2 := rfl
@[simp] theorem State.advance_v : s.advance.v = s.v := rfl
@[simp] theorem State.advance_idx : s.advance.idx = s.idx := rfl
@[simp] theorem State.advance_stack : s.advance.stack = s.stack := rfl
@[simp] theorem State.advance_sp : s.advance.sp = s.sp := rfl
@[simp] theorem State.advance_keys : s.advance.keys = s.keys := rfl
@[simp] theorem State.advance_disp : s.advance.disp = s.disp := rfl
@[simp] theorem State.advance_dt : s.advance.dt = s.dt := rfl
@[simp] theorem State.advance_st : s.advance.st = s.st := rfl
@[simp] theorem State.advance_params : s.advance.params = s.params := rfl
@[simp] theorem State.advance_draws : s.advance.draws = s.draws := rfl
@[simp] theorem State.advance_reg (r : Reg) : s.advance.reg r = s.reg r := rfl
@[simp] theorem State.advance_slot (j : Fin 16) : s.advance.slot j = s.slot j := rfl
@[simp] theorem State.advance_key (q : Key) : s.advance.key q = s.key q := rfl
@[simp] theorem State.advance_pixel (r : Fin 32) (c : Fin 64) : s.advance.pixel r c = s.pixel r c := rfl
@[simp] theorem State.advance_readByte (z : Nat) : s.advance.readByte z = s.readByte z := rfl

/-! ### rewind -/

@[simp] theorem State.rewind_mem : s.rewind.mem = s.mem := rfl
@[simp] theorem State.rewind_pc : s.rewind.pc = s.pc - 2 := rfl
@[simp] theorem State.rewind_v : s.rewind.v = s.v := rfl
@[simp] theorem State.rewind_idx : s.rewind.idx = s.idx := rfl
@[simp] theorem State.rewind_stack : s.rewind.stack = s.stack := rfl
@[simp] theorem State.rewind_sp : s.rewind.sp = s.sp := rfl
@[simp] theorem State.rewind_keys : s.rewind.keys = s.keys := rfl
@[simp] theorem State.rewind_disp : s.rewind.disp = s.disp := rfl
@[simp] theorem State.rewind_dt : s.rewind.dt = s.dt := rfl
@[simp] theorem State.rewind_st : s.rewind.st = s.st := rfl
@[simp] theorem State.rewind_params : s.rewind.params = s.params := rfl
@[simp] theorem State.rewind_draws : s.rewind.draws = s.draws := rfl
@[simp] theorem State.rewind_reg (r : Reg) : s.rewind.reg r = s.reg r := rfl
@[simp] theorem State.rewind_slot (j : Fin 16) : s.rewind.slot j = s.slot j := rfl
@[simp] theorem State.rewind_key (q : Key) : s.rewind.key q = s.key q := rfl
@[simp] theorem State.rewind_pixel (r : Fin 32) (c : Fin 64) : s.rewind.pixel r c = s.pixel r c := rfl
@[simp] theorem State.rewind_readByte (z : Nat) : s.rewind.readByte z = s.readByte z := rfl

/-! ### The accessors of an updated element -/

@[simp] theorem State.setReg_reg_self (i : Reg) (b : Byte) : (s.setReg i b).reg i = b := by
  simp [State.reg]

@[simp] theorem State.setReg_reg_ne {i r : Reg} (b : Byte) (h : r ≠ i) : (s.setReg i b).reg r = s.reg r := by
  have : i.val ≠ r.val := fun e => h (Fin.ext e.symm)
  simp [State.reg, Vector.getElem_set_ne, this]

theorem State.setReg_reg (i r : Reg) (b : Byte) : (s.setReg i b).reg r = if r = i then b else s.reg r := by
  split <;> simp_all

@[simp] theorem State.setKey_key_self (k : Key) (b : Bool) : (s.setKey k b).key k = b := by
  simp [State.key]

@[simp] theorem State.setKey_key_ne {k q : Key} (b : Bool) (h : q ≠ k) : (s.setKey k b).key q = s.key q := by
  have : k.val ≠ q.val := fun e => h (Fin.ext e.symm)
  simp [State.key, Vector.getElem_set_ne, this]

/-! ### skipIf: the pc, and nothing else -/

theorem State.skipIf_eq (c : Bool) : s.skipIf c = s.setPc (if c then s.pc + 2 else s.pc) := by
  cases c <;> rfl

@[simp] theorem State.skipIf_pc (c : Bool) : (s.skipIf c).pc = if c then s.pc + 2 else s.pc := by
  cases c <;> rfl

end Sys2Proof.Machine
end

