-- ==== Sys2Proof/Laws/Memory.lean ====
section
/-! SUPPORT. Memory: a read after a write, every other address alone, and the canonical form kept by every
operation (20_memory.md R69; assumption 9). -/

namespace Sys2Proof.Machine

variable (p : Params)

/-! ### Reading after one change of the list -/

theorem Memory.read_erase (m : Memory) (a z : Nat) :
    Memory.read p (Memory.erase a m) z = if z = a then Memory.unlisted p a else Memory.read p m z := by
  induction m with
  | nil => by_cases h : z = a <;> simp [Memory.erase, Memory.read, h]
  | cons c m ih =>
    obtain ⟨k, b⟩ := c
    by_cases hk : k = a
    · subst hk
      by_cases hz : z = k
      · subst hz; simpa [Memory.erase] using ih
      · simp [Memory.erase, Memory.read, ih, hz, Ne.symm hz]
    · by_cases hz : z = a
      · subst hz; simp [Memory.erase, Memory.read, ih, hk]
      · simp [Memory.erase, Memory.read, ih, hk, hz]

theorem Memory.read_insert (m : Memory) (a z : Nat) (v : Byte) :
    Memory.read p (Memory.insert a v m) z = if z = a then v else Memory.read p m z := by
  induction m with
  | nil =>
    by_cases h : z = a
    · simp [Memory.insert, Memory.read, h]
    · simp [Memory.insert, Memory.read, h, Ne.symm h]
  | cons c m ih =>
    obtain ⟨k, b⟩ := c
    rcases Nat.lt_trichotomy a k with h | h | h
    · by_cases hz : z = a
      · simp [Memory.insert, Memory.read, h, hz]
      · simp [Memory.insert, Memory.read, h, hz, Ne.symm hz]
    · subst h
      by_cases hz : z = a
      · simp [Memory.insert, Memory.read, hz]
      · simp [Memory.insert, Memory.read, hz, Ne.symm hz]
    · have h1 : ¬ a < k := by omega
      have h2 : ¬ a = k := by omega
      by_cases hz : z = a
      · subst hz; simp [Memory.insert, Memory.read, ih, h1, h2, Ne.symm h2]
      · simp [Memory.insert, Memory.read, ih, h1, h2, hz]

/-- Every read of MEM[z] gives the last value written to it (R69). -/
theorem Memory.read_write (m : Memory) (a z : Nat) (v : Byte) :
    Memory.read p (Memory.write p m a v) z = if z = a then v else Memory.read p m z := by
  unfold Memory.write
  split
  · next h => rw [Memory.read_erase]; simp [h]
  · exact Memory.read_insert p m a z v

theorem Memory.read_writeAll (m : Memory) (a z : Nat) (bs : List Byte) :
    Memory.read p (Memory.writeAll p m a bs) z =
      if h : a ≤ z ∧ z < a + bs.length then bs[z - a]'(by omega) else Memory.read p m z := by
  induction bs generalizing m a with
  | nil => simp only [Memory.writeAll, List.length_nil]; rw [dif_neg (by omega)]
  | cons b bs ih =>
    rw [Memory.writeAll, ih, Memory.read_write]
    by_cases h1 : a + 1 ≤ z ∧ z < a + 1 + bs.length
    · rw [dif_pos h1, dif_pos (by simp only [List.length_cons]; omega), List.getElem_cons]
      rw [dif_neg (by omega)]
      congr 1
    · rw [dif_neg h1]
      by_cases hz : z = a
      · subst hz; simp
      · rw [if_neg hz, dif_neg (by simp only [List.length_cons]; omega)]

/-! ### The canonical form -/

theorem Memory.wfFrom_mono {lo lo' : Nat} (h : lo' ≤ lo) {m : Memory} (hm : Memory.wfFrom p lo m = true) :
    Memory.wfFrom p lo' m = true := by
  cases m with
  | nil => rfl
  | cons c m =>
    obtain ⟨k, b⟩ := c
    simp only [Memory.wfFrom, Bool.and_eq_true, decide_eq_true_eq] at hm ⊢
    exact ⟨⟨⟨by omega, hm.1.1.2⟩, hm.1.2⟩, hm.2⟩

theorem Memory.wfFrom_erase (a : Nat) {lo : Nat} {m : Memory} (hm : Memory.wfFrom p lo m = true) :
    Memory.wfFrom p lo (Memory.erase a m) = true := by
  induction m generalizing lo with
  | nil => rfl
  | cons c m ih =>
    obtain ⟨k, b⟩ := c
    simp only [Memory.wfFrom, Bool.and_eq_true, decide_eq_true_eq] at hm
    by_cases h : k = a
    · simp only [Memory.erase, h, if_true]
      exact Memory.wfFrom_mono p (by omega) (ih hm.2)
    · simp only [Memory.erase, h, if_false, Memory.wfFrom, Bool.and_eq_true, decide_eq_true_eq]
      exact ⟨hm.1, ih hm.2⟩

theorem Memory.wfFrom_insert {a : Nat} {v : Byte} (ha : a < memSize) (hv : v ≠ Memory.unlisted p a)
    {lo : Nat} (hlo : lo ≤ a) {m : Memory} (hm : Memory.wfFrom p lo m = true) :
    Memory.wfFrom p lo (Memory.insert a v m) = true := by
  induction m generalizing lo with
  | nil => simp [Memory.insert, Memory.wfFrom, hlo, ha, hv]
  | cons c m ih =>
    obtain ⟨k, b⟩ := c
    have hm' := hm
    simp only [Memory.wfFrom, Bool.and_eq_true, decide_eq_true_eq] at hm
    rcases Nat.lt_trichotomy a k with h | h | h
    · have hk : k < memSize := hm.1.1.2
      simp only [Memory.insert, h, if_true, Memory.wfFrom, Bool.and_eq_true, decide_eq_true_eq]
      exact ⟨⟨⟨hlo, ha⟩, by simp [hv]⟩, ⟨⟨⟨by omega, hk⟩, hm.1.2⟩, hm.2⟩⟩
    · subst h
      simp only [Memory.insert, Nat.lt_irrefl, if_false, if_true, Memory.wfFrom, Bool.and_eq_true, decide_eq_true_eq]
      exact ⟨⟨⟨hlo, ha⟩, by simp [hv]⟩, hm.2⟩
    · have h1 : ¬ a < k := by omega
      have h2 : ¬ a = k := by omega
      simp only [Memory.insert, h1, h2, if_false, Memory.wfFrom, Bool.and_eq_true, decide_eq_true_eq]
      exact ⟨hm.1, ih (by omega) hm.2⟩

/-- A write inside the address space keeps the canonical form. -/
theorem Memory.wf_write {m : Memory} (hm : Memory.wf p m = true) {a : Nat} (ha : a < memSize) (v : Byte) :
    Memory.wf p (Memory.write p m a v) = true := by
  unfold Memory.write
  split
  · exact Memory.wfFrom_erase p a hm
  · next h => exact Memory.wfFrom_insert p ha h (Nat.zero_le _) hm

/-- A write of several bytes inside the address space keeps the canonical form. -/
theorem Memory.wf_writeAll {m : Memory} (hm : Memory.wf p m = true) {a : Nat} (bs : List Byte)
    (ha : a + bs.length ≤ memSize) : Memory.wf p (Memory.writeAll p m a bs) = true := by
  induction bs generalizing m a with
  | nil => exact hm
  | cons b bs ih =>
    simp only [List.length_cons] at ha
    exact ih (Memory.wf_write p hm (by omega) b) (by omega)

/-- The memory of reset is canonical. -/
theorem Memory.wf_nil : Memory.wf p [] = true := rfl

/-! ### The same, through the state -/

theorem State.readByte_writeByte (s : State) (a z : Nat) (b : Byte) :
    (s.writeByte a b).readByte z = if z = a then b else s.readByte z :=
  Memory.read_write _ _ _ _ _

theorem State.readByte_writeBytes (s : State) (a z : Nat) (bs : List Byte) :
    (s.writeBytes a bs).readByte z =
      if h : a ≤ z ∧ z < a + bs.length then bs[z - a]'(by omega) else s.readByte z :=
  Memory.read_writeAll _ _ _ _ _

theorem State.readByte_writeBytes_of_mem (s : State) {a z : Nat} {bs : List Byte} (h : a ≤ z) (h' : z < a + bs.length) :
    (s.writeBytes a bs).readByte z = bs[z - a]'(by omega) := by
  rw [State.readByte_writeBytes, dif_pos ⟨h, h'⟩]

theorem State.readByte_writeBytes_of_not_mem (s : State) {a z : Nat} {bs : List Byte}
    (h : ¬ (a ≤ z ∧ z < a + bs.length)) : (s.writeBytes a bs).readByte z = s.readByte z := by
  rw [State.readByte_writeBytes, dif_neg h]

end Sys2Proof.Machine
end

