-- ==== Sys2Proof/Laws/Ops.lean ====
section
/-! SUPPORT. One lemma per shared operation that says what it can do: the stack, the fetch, the checks of a data
access, block store and load, the keypad, the flag write; and the frame of each update. -/

namespace Sys2Proof.Machine

/-! ### Frames -/

theorem FrameBut.of_eq {C : Part → Prop} {s t u : State} (h : FrameBut C s t) (e : t = u) : FrameBut C s u := e ▸ h

theorem FrameBut.mono {C D : Part → Prop} {s t : State} (h : FrameBut C s t) (hCD : ∀ p, C p → D p) :
    FrameBut D s t := fun p hp => h p fun hc => hp (hCD p hc)

theorem FrameBut.refl (C : Part → Prop) (s : State) : FrameBut C s s := by
  intro p _; cases p <;> rfl

theorem FrameBut.trans {C : Part → Prop} {s t u : State} (h : FrameBut C s t) (h' : FrameBut C t u) :
    FrameBut C s u := by
  intro p hp
  have a := h p hp
  have b := h' p hp
  cases p <;> exact b.trans a

theorem frame_setReg (s : State) (i : Reg) (b : Byte) : Frame [.reg i] s (s.setReg i b) := by
  intro p hp
  cases p <;> simp_all [Part.Same]

theorem frame_setPc (s : State) (w : Word) : Frame [.pc] s (s.setPc w) := by
  intro p hp
  cases p <;> simp_all [Part.Same]

theorem frame_setIdx (s : State) (w : Word) : Frame [.idx] s (s.setIdx w) := by
  intro p hp
  cases p <;> simp_all [Part.Same]

theorem frame_setDt (s : State) (b : Byte) : Frame [.dt] s (s.setDt b) := by
  intro p hp
  cases p <;> simp_all [Part.Same]

theorem frame_setSt (s : State) (b : Byte) : Frame [.st] s (s.setSt b) := by
  intro p hp
  cases p <;> simp_all [Part.Same]

theorem frame_setKey (s : State) (k : Key) (b : Bool) : Frame [.key k] s (s.setKey k b) := by
  intro p hp
  cases p <;> simp_all [Part.Same]

theorem frame_nextDraw (s : State) : Frame [.draws] s s.nextDraw := by
  intro p hp
  cases p <;> simp_all [Part.Same]

theorem frame_setDisp (s : State) (d : Display) : FrameBut (fun p => ∃ r c, p = .pixel r c) s (s.setDisp d) := by
  intro p hp
  cases p <;> simp_all [Part.Same]

theorem frame_skipIf (s : State) (c : Bool) : Frame [.pc] s (s.skipIf c) := by
  rw [State.skipIf_eq]; exact frame_setPc _ _

theorem frame_writeByte (s : State) (a : Nat) (b : Byte) : Frame [.byte a] s (s.writeByte a b) := by
  intro p hp
  cases p <;> simp_all [Part.Same, State.readByte_writeByte]

theorem frame_writeBytes (s : State) (a : Nat) (bs : List Byte) :
    FrameBut (fun p => ∃ k, k < bs.length ∧ p = .byte (a + k)) s (s.writeBytes a bs) := by
  intro p hp
  cases p with
  | byte z =>
    apply State.readByte_writeBytes_of_not_mem
    intro h
    exact hp ⟨z - a, by omega, by rw [show a + (z - a) = z by omega]⟩
  | _ => simp [Part.Same]

/-- A result and a flag change V[x] and VF, and nothing else. -/
theorem frame_setResultFlag (s : State) (x : Reg) (r : Byte) (f : Bool) :
    Frame [.reg x, .reg vf] s (s.setResultFlag x r f) :=
  FrameBut.trans ((frame_setReg s x r).mono fun p hp => by simp_all)
    ((frame_setReg _ vf _).mono fun p hp => by simp_all)

/-! ### Result and flag (R180) -/

@[simp] theorem setResultFlag_vf (s : State) (x : Reg) (r : Byte) (f : Bool) :
    (s.setResultFlag x r f).reg vf = flagByte f := by
  simp [State.setResultFlag]

theorem setResultFlag_reg (s : State) {x : Reg} (h : x ≠ vf) (r : Byte) (f : Bool) :
    (s.setResultFlag x r f).reg x = r := by
  simp [State.setResultFlag, h]

theorem flagByte_toNat (b : Bool) : (flagByte b).toNat = if b then 1 else 0 := by cases b <;> rfl

/-! ### The stack (R145, R146) -/

theorem push_of_lt {s : State} (w : Word) (h : s.sp.val < 16) :
    s.push w = .ok { s with stack := s.stack.set s.sp.val w, sp := ⟨s.sp.val + 1, by omega⟩ } := by
  simp [State.push, h]

theorem push_of_full {s : State} (w : Word) (h : s.sp.val = 16) : s.push w = .error .stackOverflow := by
  simp [State.push, h]

theorem pop_of_pos {s : State} {j : Fin 16} (h : s.sp.val = j.val + 1) :
    s.pop = .ok (s.slot j, { s with sp := ⟨j.val, by omega⟩ }) := by
  simp [State.pop, State.slot, h]

theorem pop_of_zero {s : State} (h : s.sp.val = 0) : s.pop = .error .stackUnderflow := by
  simp [State.pop, h]

/-- A push that succeeds wrote its slot, raised SP and changed nothing else. -/
theorem push_ok {s t : State} {w : Word} (h : s.push w = .ok t) :
    ∃ j : Fin 16, s.sp.val = j.val ∧ t = { s with stack := s.stack.set j.val w, sp := ⟨j.val + 1, by omega⟩ } := by
  by_cases hs : s.sp.val < 16
  · rw [push_of_lt w hs] at h
    exact ⟨⟨s.sp.val, hs⟩, rfl, (Except.ok.inj h).symm⟩
  · simp [State.push, hs] at h

/-- A pop that succeeds answers the slot below SP and lowers SP. -/
theorem pop_ok {s t : State} {w : Word} (h : s.pop = .ok (w, t)) :
    ∃ j : Fin 16, s.sp.val = j.val + 1 ∧ w = s.slot j ∧ t = { s with sp := ⟨j.val, by omega⟩ } := by
  by_cases hs : 0 < s.sp.val
  · have hj : s.sp.val = (⟨s.sp.val - 1, by omega⟩ : Fin 16).val + 1 := by simp; omega
    rw [pop_of_pos hj] at h
    have := Except.ok.inj h
    exact ⟨_, hj, (congrArg Prod.fst this).symm, (congrArg Prod.snd this).symm⟩
  · simp [State.pop, hs] at h

/-! ### Operands -/

theorem zext16_toNat (nnn : Addr12) : (zext16 nnn).toNat = nnn.toNat := by
  have := nnn.isLt
  simp [zext16]; omega

/-! ### The fetch (R62, R65) -/

theorem fetch_of_le {s : State} (h : s.pc.toNat ≤ 0xFFE) : s.fetch = .ok (s.fetch16 s.pc.toNat) := by
  simp [State.fetch, h]

theorem fetch_of_gt {s : State} (h : s.pc.toNat > 0xFFE) : s.fetch = .error .fetchOutOfRange := by
  simp [State.fetch, Nat.not_le.2 h]

theorem wordOfBytes_toNat (hi lo : Byte) : (wordOfBytes hi lo).toNat = hi.toNat * 256 + lo.toNat := by
  have h := lo.isLt
  simp only [wordOfBytes, BitVec.toNat_append]
  rw [← Nat.shiftLeft_add_eq_or_of_lt (by simpa using h), Nat.shiftLeft_eq]

theorem fetch16_toNat (s : State) (a : Nat) :
    (s.fetch16 a).toNat = (s.readByte a).toNat * 256 + (s.readByte (a + 1)).toNat :=
  wordOfBytes_toNat _ _

/-! ### The checks of a data access (R64, R66) -/

@[simp] theorem length_dataAddrs (s : State) (n : Nat) : (s.dataAddrs n).length = n := by
  simp [State.dataAddrs]

theorem allInMemory_dataAddrs (s : State) (n : Nat) :
    allInMemory (s.dataAddrs n) = true ↔ n = 0 ∨ s.idx.toNat + n ≤ 0x1000 := by
  simp only [allInMemory, State.dataAddrs, List.all_map, List.all_eq_true, List.mem_range, Function.comp_apply,
    decide_eq_true_eq]
  constructor
  · intro h
    by_cases hn : n = 0
    · exact .inl hn
    · have := h (n - 1) (by omega)
      right; omega
  · intro h k hk
    omega

theorem allAboveFont_dataAddrs (s : State) (n : Nat) :
    allAboveFont (s.dataAddrs n) = true ↔ n = 0 ∨ 0x50 ≤ s.idx.toNat := by
  simp only [allAboveFont, State.dataAddrs, List.all_map, List.all_eq_true, List.mem_range, Function.comp_apply,
    Bool.not_eq_true', decide_eq_false_iff_not, Nat.not_le]
  constructor
  · intro h
    by_cases hn : n = 0
    · exact .inl hn
    · have := h 0 (by omega)
      right; omega
  · intro h k hk
    omega

/-- A store at I inside memory and above the font writes its bytes. -/
theorem storeAtIdx_next {s : State} {bs : List Byte} (h : s.idx.toNat + bs.length ≤ 0x1000) (hf : 0x50 ≤ s.idx.toNat) :
    s.storeAtIdx bs = .next (s.writeBytes s.idx.toNat bs) := by
  rw [State.storeAtIdx, if_pos ((allInMemory_dataAddrs s _).2 (.inr h)),
    if_pos ((allAboveFont_dataAddrs s _).2 (.inr hf))]

theorem storeAtIdx_outOfRange {s : State} {bs : List Byte} (hb : 0 < bs.length)
    (h : s.idx.toNat + bs.length > 0x1000) : s.storeAtIdx bs = .fault .memoryOutOfRange := by
  rw [State.storeAtIdx, if_neg (fun e => by have := (allInMemory_dataAddrs s _).1 e; omega)]; rfl

theorem storeAtIdx_font {s : State} {bs : List Byte} (hb : 0 < bs.length) (h : s.idx.toNat + bs.length ≤ 0x1000)
    (hf : s.idx.toNat < 0x50) : s.storeAtIdx bs = .fault .fontWrite := by
  rw [State.storeAtIdx, if_pos ((allInMemory_dataAddrs s _).2 (.inr h)),
    if_neg (fun e => by have := (allAboveFont_dataAddrs s _).1 e; omega)]; rfl

/-- A store of at least one byte that gives a next state was inside memory, above the font, and wrote its bytes. -/
theorem storeAtIdx_cases {s t : State} {bs : List Byte} (hb : 0 < bs.length) (h : s.storeAtIdx bs = .next t) :
    s.idx.toNat + bs.length ≤ 0x1000 ∧ 0x50 ≤ s.idx.toNat ∧ t = s.writeBytes s.idx.toNat bs := by
  rcases Nat.lt_or_ge 0x1000 (s.idx.toNat + bs.length) with h1 | h1
  · rw [storeAtIdx_outOfRange hb h1] at h; cases h
  · rcases Nat.lt_or_ge s.idx.toNat 0x50 with h2 | h2
    · rw [storeAtIdx_font hb h1 h2] at h; cases h
    · rw [storeAtIdx_next h1 h2] at h; cases h; exact ⟨h1, h2, rfl⟩

/-! ### Register lists (R221, R223) -/

theorem mem_regsUpTo {x r : Reg} : r ∈ regsUpTo x ↔ r ≤ x := by
  simp [regsUpTo]

@[simp] theorem length_regsUpTo (x : Reg) : (regsUpTo x).length = x.val + 1 := by
  revert x; decide

theorem regsUpTo_getElem {x r : Reg} (h : r.val < (regsUpTo x).length) : (regsUpTo x)[r.val] = r := by
  have key : ∀ x r : Reg, r ≤ x → (regsUpTo x)[r.val]? = some r := by decide
  have := key x r (by rw [length_regsUpTo] at h; exact Fin.le_def.2 (by omega))
  exact (List.getElem_eq_iff h).2 this

theorem foldl_setReg_reg (f : Reg → Byte) (l : List Reg) (s : State) (r : Reg) :
    (l.foldl (fun t q => t.setReg q (f q)) s).reg r = if r ∈ l then f r else s.reg r := by
  induction l generalizing s with
  | nil => simp
  | cons q l ih =>
    rw [List.foldl_cons, ih]
    by_cases h : r ∈ l
    · simp [h]
    · by_cases hq : r = q
      · subst hq; simp [h]
      · simp [h, hq]

theorem foldl_setReg_frame (f : Reg → Byte) (l : List Reg) (s : State) :
    FrameBut (fun p => ∃ r, r ∈ l ∧ p = .reg r) s (l.foldl (fun t q => t.setReg q (f q)) s) := by
  induction l generalizing s with
  | nil => exact FrameBut.refl _ _
  | cons q l ih =>
    rw [List.foldl_cons]
    exact FrameBut.trans ((frame_setReg s q _).mono fun p hp => ⟨q, by simp, by simpa using hp⟩)
      ((ih _).mono fun p ⟨r, hr, e⟩ => ⟨r, by simp [hr], e⟩)

/-- Fx65's load: V0..Vx from I on, and no other register. -/
theorem loadRegs_reg (s : State) (x r : Reg) :
    (s.loadRegs (regsUpTo x)).reg r = if r ≤ x then s.readByte (s.idx.toNat + r.val) else s.reg r := by
  rw [State.loadRegs, foldl_setReg_reg]; simp [mem_regsUpTo]

theorem loadRegs_frame (s : State) (x : Reg) :
    FrameBut (fun p => ∃ r : Reg, r ≤ x ∧ p = .reg r) s (s.loadRegs (regsUpTo x)) :=
  (foldl_setReg_frame _ _ _).mono fun _ ⟨r, hr, e⟩ => ⟨r, mem_regsUpTo.1 hr, e⟩

theorem foldl_setReg_mem (f : Reg → Byte) (l : List Reg) (s : State) :
    (l.foldl (fun t q => t.setReg q (f q)) s).mem = s.mem := by
  induction l generalizing s with
  | nil => rfl
  | cons q l ih => rw [List.foldl_cons, ih]; rfl

@[simp] theorem loadRegs_mem (s : State) (x : Reg) : (s.loadRegs (regsUpTo x)).mem = s.mem := foldl_setReg_mem _ _ _

/-! ### The keypad (R262, R264, R265) -/

theorem mem_heldKeys {s : State} {k : Key} : k ∈ s.heldKeys ↔ s.key k = true := by
  simp [State.heldKeys]

theorem heldKeys_eq_nil {s : State} : s.heldKeys = [] ↔ ∀ k, s.key k = false := by
  simp [State.heldKeys, List.filter_eq_nil_iff]

/-- The chosen key is one of the held keys, whatever the choice. -/
theorem chooseKey_mem (n : Nat) (k : Key) (ks : List Key) : chooseKey n k ks ∈ k :: ks := by
  have h : n % (ks.length + 1) < (k :: ks).length := Nat.mod_lt _ (Nat.succ_pos _)
  rw [chooseKey, List.getD_eq_getElem _ _ h]
  exact List.getElem_mem h

theorem keyCheck_of_eq {b : Byte} {k : Key} (h : b.toNat = k.val) : keyCheck b = .ok k := by
  simp [keyCheck, h]

theorem keyCheck_of_gt {b : Byte} (h : b.toNat > 0xF) : keyCheck b = .error .keyOutOfRange := by
  simp [keyCheck, Nat.not_lt.2 (show 16 ≤ b.toNat from h)]

end Sys2Proof.Machine
end

