-- ==== Sys2Proof/Laws/Display.lean ====
section
/-! SUPPORT. The drawing subroutine as a formula (44_display.md R242 to R245): a loop over cells that are all
different pixels toggles exactly the cells whose bit is 1, and collides exactly when one of them was on. -/

namespace Sys2Proof.Machine

/-! ### One pixel -/

theorem Display.get_toggle (d : Display) (r r' : Fin 32) (c c' : Fin 64) :
    (d.toggle r c).get r' c' = if r' = r ∧ c' = c then !d.get r c else d.get r' c' := by
  unfold Display.toggle Display.get
  by_cases hr : r' = r
  · subst hr
    by_cases hc : c' = c
    · subst hc; simp
    · have : c.val ≠ c'.val := fun e => hc (Fin.ext e.symm)
      simp [hc, Vector.getElem_set_ne, this]
  · have : r.val ≠ r'.val := fun e => hr (Fin.ext e.symm)
    simp [hr, Vector.getElem_set_ne, this]

@[simp] theorem Display.get_clear (r : Fin 32) (c : Fin 64) : Display.clear.get r c = false := by
  simp [Display.clear, Display.get]

theorem State.pixel_eq (s : State) (r : Fin 32) (c : Fin 64) : s.pixel r c = s.disp.get r c := rfl

@[simp] theorem State.setDisp_pixel (s : State) (d : Display) (r : Fin 32) (c : Fin 64) :
    (s.setDisp d).pixel r c = d.get r c := rfl

/-! ### The loop over cells -/

/-- Over cells that name each pixel at most once, the loop toggles the cells with bit 1. -/
theorem foldl_drawCell_get (cells : List ((Fin 32 × Fin 64) × Bool)) (hnd : (cells.map Prod.fst).Nodup)
    (acc : Display × Bool) (r : Fin 32) (c : Fin 64) :
    (cells.foldl drawCell acc).1.get r c = (acc.1.get r c != decide (((r, c), true) ∈ cells)) := by
  induction cells generalizing acc with
  | nil => simp
  | cons cell cells ih =>
    obtain ⟨⟨r1, c1⟩, bit⟩ := cell
    simp only [List.map_cons, List.nodup_cons] at hnd
    rw [List.foldl_cons, ih hnd.2]
    cases bit with
    | false => simp [drawCell]
    | true =>
      simp only [drawCell, if_true, Display.get_toggle]
      by_cases h : r = r1 ∧ c = c1
      · obtain ⟨rfl, rfl⟩ := h
        have : ((r, c), true) ∉ cells := fun hm => hnd.1 (List.mem_map.2 ⟨_, hm, rfl⟩)
        simp [this]
      · have : ¬ ((r, c) = (r1, c1)) := by simpa using h
        simp [h, this]

/-- Over such cells, the loop collides exactly when a cell with bit 1 names a pixel that was on. -/
theorem foldl_drawCell_hit (cells : List ((Fin 32 × Fin 64) × Bool)) (hnd : (cells.map Prod.fst).Nodup)
    (acc : Display × Bool) :
    (cells.foldl drawCell acc).2 = true ↔
      acc.2 = true ∨ ∃ r c, acc.1.get r c = true ∧ ((r, c), true) ∈ cells := by
  induction cells generalizing acc with
  | nil => simp
  | cons cell cells ih =>
    obtain ⟨⟨r1, c1⟩, bit⟩ := cell
    simp only [List.map_cons, List.nodup_cons] at hnd
    rw [List.foldl_cons, ih hnd.2]
    cases bit with
    | false => simp [drawCell]
    | true =>
      have other : ∀ r c, ((r, c), true) ∈ cells → (acc.1.toggle r1 c1).get r c = acc.1.get r c := by
        intro r c hm
        rw [Display.get_toggle, if_neg]
        rintro ⟨rfl, rfl⟩
        exact hnd.1 (List.mem_map.2 ⟨_, hm, rfl⟩)
      simp only [drawCell, if_true, Bool.or_eq_true, List.mem_cons]
      constructor
      · rintro ((h | h) | ⟨r, c, h, hm⟩)
        · exact .inl h
        · exact .inr ⟨r1, c1, h, .inl rfl⟩
        · exact .inr ⟨r, c, (other r c hm) ▸ h, .inr hm⟩
      · rintro (h | ⟨r, c, h, e | hm⟩)
        · exact .inl (.inl h)
        · obtain ⟨rfl, rfl⟩ : r = r1 ∧ c = c1 := by simpa using e
          exact .inl (.inr h)
        · exact .inr ⟨r, c, (other r c hm).symm ▸ h, hm⟩

/-! ### The cells of a sprite -/

theorem mem_spriteCells {oy ox row : Nat} {bs : List Byte} {r : Fin 32} {c : Fin 64} {bit : Bool} :
    ((r, c), bit) ∈ spriteCells oy ox row bs ↔
      ∃ k col, ∃ h : k < bs.length, col < 8 ∧ wrapRow (oy + (row + k)) = r ∧ wrapCol (ox + col) = c ∧
        bs[k].getLsbD (7 - col) = bit := by
  induction bs generalizing row with
  | nil => simp [spriteCells]
  | cons b bs ih =>
    simp only [spriteCells, List.mem_append, ih, spriteRow, List.mem_map, List.mem_range, Prod.mk.injEq]
    constructor
    · rintro (⟨col, hcol, ⟨hr, hc⟩, hb⟩ | ⟨k, col, hk, hcol, hr, hc, hb⟩)
      · exact ⟨0, col, by simp, hcol, by simpa using hr, hc, by simpa using hb⟩
      · exact ⟨k + 1, col, by simpa using hk, hcol, by rw [show row + (k + 1) = row + 1 + k by omega]; exact hr, hc,
          by simpa using hb⟩
    · rintro ⟨k, col, hk, hcol, hr, hc, hb⟩
      cases k with
      | zero => exact .inl ⟨col, hcol, ⟨by simpa using hr, hc⟩, by simpa using hb⟩
      | succ k =>
        exact .inr ⟨k, col, by simpa using hk, hcol, by rw [show row + 1 + k = row + (k + 1) by omega]; exact hr, hc,
          by simpa using hb⟩

/-- A sprite of at most 32 rows names each pixel at most once (R245). -/
theorem spriteCells_nodup (oy ox row : Nat) (bs : List Byte) (h : bs.length ≤ 32) :
    ((spriteCells oy ox row bs).map Prod.fst).Nodup := by
  induction bs generalizing row with
  | nil => simp [spriteCells]
  | cons b bs ih =>
    rw [spriteCells, List.map_append]
    refine List.Nodup.append ?_ (ih _ (by simp only [List.length_cons] at h; omega)) ?_
    · rw [spriteRow, List.map_map]
      refine List.Nodup.map_on ?_ List.nodup_range
      intro a ha b hb e
      simp only [List.mem_range] at ha hb
      simp only [Function.comp_apply, Prod.mk.injEq, wrapCol, Fin.mk.injEq] at e
      omega
    · intro q hq hq'
      obtain ⟨⟨⟨r, c⟩, bit⟩, hm, rfl⟩ := List.mem_map.1 hq
      obtain ⟨⟨⟨r', c'⟩, bit'⟩, hm', e⟩ := List.mem_map.1 hq'
      obtain ⟨rfl, rfl⟩ : r' = r ∧ c' = c := by simpa using e
      simp only [spriteRow, List.mem_map, List.mem_range, Prod.mk.injEq] at hm
      obtain ⟨col, _, ⟨hr, _⟩, _⟩ := hm
      obtain ⟨k, col', hk, _, hr', _, _⟩ := mem_spriteCells.1 hm'
      have e2 := hr.trans hr'.symm
      simp only [wrapRow, Fin.mk.injEq] at e2
      simp only [List.length_cons] at h
      omega

/-! ### The subroutine -/

/-- The sprite's rows have a bit of 1 on a pixel. -/
def RowsCover (oy ox : Nat) (rows : List Byte) (r : Fin 32) (c : Fin 64) : Prop :=
  ∃ k col, ∃ h : k < rows.length, col < 8 ∧ wrapRow (oy + k) = r ∧ wrapCol (ox + col) = c ∧
    rows[k].getLsbD (7 - col) = true

theorem mem_spriteCells_iff_cover {oy ox : Nat} {rows : List Byte} {r : Fin 32} {c : Fin 64} :
    ((r, c), true) ∈ spriteCells oy ox 0 rows ↔ RowsCover oy ox rows r c := by
  rw [mem_spriteCells]; simp [RowsCover]

/-- Drawing at most 32 rows toggles exactly the covered pixels (R245). -/
theorem drawSprite_get {oy ox : Nat} {rows : List Byte} (h : rows.length ≤ 32) (d : Display) (r : Fin 32) (c : Fin 64) :
    (drawSprite oy ox rows d).1.get r c = true ↔ ¬ (d.get r c = true ↔ RowsCover oy ox rows r c) := by
  rw [drawSprite, foldl_drawCell_get _ (spriteCells_nodup _ _ _ _ h), ← mem_spriteCells_iff_cover]
  by_cases hm : ((r, c), true) ∈ spriteCells oy ox 0 rows <;> simp [hm]

/-- Drawing at most 32 rows collides exactly when a covered pixel was on (R244). -/
theorem drawSprite_hit {oy ox : Nat} {rows : List Byte} (h : rows.length ≤ 32) (d : Display) :
    (drawSprite oy ox rows d).2 = true ↔ ∃ r c, d.get r c = true ∧ RowsCover oy ox rows r c := by
  rw [drawSprite, foldl_drawCell_hit _ (spriteCells_nodup _ _ _ _ h)]
  simp [mem_spriteCells_iff_cover]

/-- The rows DRW reads cover a pixel exactly when the sprite of R241 does. -/
theorem rowsCover_iff_spriteCovers (s : State) (x y : Reg) (n : Nat) (r : Fin 32) (c : Fin 64) :
    RowsCover ((s.reg y).toNat % 32) ((s.reg x).toNat % 64) ((s.dataAddrs n).map s.readByte) r c ↔
      SpriteCovers s x y n r c := by
  simp only [RowsCover, SpriteCovers, State.dataAddrs, List.getElem_map, List.getElem_range, List.length_map,
    List.length_range, wrapRow, wrapCol, Fin.ext_iff, exists_prop]

end Sys2Proof.Machine
end

