-- ==== Sys2Proof/Laws/PerInstr.lean ====
section
/-! SUPPORT. Statements about every instruction as syntax, one lemma per constructor (LAWS.json "per_instruction").
OpcodeRow: the word of an instruction is selected by that instruction's own row of 30_encoding.md R95, whatever
P_LOOSE_SKIP_DECODE is. -/

namespace Sys2Proof

theorem wordXYN_selected (g : BitVec 4) (x y : Reg) (n : BitVec 4) :
    wordXYN g x y n &&& 0xF00F = wordXYN g 0 0 n := by
  apply BitVec.eq_of_getLsbD_eq
  intro i hi
  simp only [BitVec.getLsbD_and, wordXYN, regBits, BitVec.getLsbD_append]
  interval_cases i <;> simp

theorem wordXYN_group (g : BitVec 4) (x y : Reg) (n : BitVec 4) :
    wordXYN g x y n &&& 0xF000 = wordXYN g 0 0 0 := by
  apply BitVec.eq_of_getLsbD_eq
  intro i hi
  simp only [BitVec.getLsbD_and, wordXYN, regBits, BitVec.getLsbD_append]
  interval_cases i <;> simp

theorem wordXNN_selected (g : BitVec 4) (x : Reg) (nn : Byte) :
    wordXNN g x nn &&& 0xF0FF = wordXNN g 0 nn := by
  apply BitVec.eq_of_getLsbD_eq
  intro i hi
  simp only [BitVec.getLsbD_and, wordXNN, regBits, BitVec.getLsbD_append]
  interval_cases i <;> simp

theorem wordXNN_group (g : BitVec 4) (x : Reg) (nn : Byte) :
    wordXNN g x nn &&& 0xF000 = wordXNN g 0 0 := by
  apply BitVec.eq_of_getLsbD_eq
  intro i hi
  simp only [BitVec.getLsbD_and, wordXNN, regBits, BitVec.getLsbD_append]
  interval_cases i <;> simp

theorem wordNNN_group (g : BitVec 4) (nnn : Addr12) :
    wordNNN g nnn &&& 0xF000 = wordNNN g 0 := by
  apply BitVec.eq_of_getLsbD_eq
  intro i hi
  simp only [BitVec.getLsbD_and, wordNNN, BitVec.getLsbD_append]
  interval_cases i <;> simp

end Sys2Proof

namespace Sys2Proof.Laws.OpcodeRow

/-- The instruction is well formed and its own row of R95 selects its word, strictly or loosely (R99). -/
def Statement (i : Instr) : Prop :=
  i.wellFormed = true ∧ ∀ loose, (i.row loose).selects (encode i) = true

theorem cls : Statement .cls := by
  exact ⟨rfl, by decide⟩

theorem ret : Statement .ret := by
  exact ⟨rfl, by decide⟩

theorem jp (nnn : Addr12) : Statement (.jp nnn) := by
  refine ⟨rfl, fun loose => ?_⟩
  simp only [Instr.row, OpcodeRow.selects, encode, wordNNN_group]; decide

theorem call (nnn : Addr12) : Statement (.call nnn) := by
  refine ⟨rfl, fun loose => ?_⟩
  simp only [Instr.row, OpcodeRow.selects, encode, wordNNN_group]; decide

theorem seImm (x : Reg) (nn : Byte) : Statement (.seImm x nn) := by
  refine ⟨rfl, fun loose => ?_⟩
  simp only [Instr.row, OpcodeRow.selects, encode, wordXNN_group]; decide

theorem sneImm (x : Reg) (nn : Byte) : Statement (.sneImm x nn) := by
  refine ⟨rfl, fun loose => ?_⟩
  simp only [Instr.row, OpcodeRow.selects, encode, wordXNN_group]; decide

theorem seReg (x y : Reg) : Statement (.seReg x y) := by
  refine ⟨rfl, fun loose => ?_⟩
  cases loose
  · simp only [Instr.row, OpcodeRow.selects, encode, Bool.false_eq_true, if_false, wordXYN_selected]; decide
  · simp only [Instr.row, OpcodeRow.selects, encode, if_true, wordXYN_group]; decide

theorem ldImm (x : Reg) (nn : Byte) : Statement (.ldImm x nn) := by
  refine ⟨rfl, fun loose => ?_⟩
  simp only [Instr.row, OpcodeRow.selects, encode, wordXNN_group]; decide

theorem addImm (x : Reg) (nn : Byte) : Statement (.addImm x nn) := by
  refine ⟨rfl, fun loose => ?_⟩
  simp only [Instr.row, OpcodeRow.selects, encode, wordXNN_group]; decide

theorem ldReg (x y : Reg) : Statement (.ldReg x y) := by
  refine ⟨rfl, fun loose => ?_⟩
  simp only [Instr.row, OpcodeRow.selects, encode, wordXYN_selected]; decide

theorem orReg (x y : Reg) : Statement (.orReg x y) := by
  refine ⟨rfl, fun loose => ?_⟩
  simp only [Instr.row, OpcodeRow.selects, encode, wordXYN_selected]; decide

theorem andReg (x y : Reg) : Statement (.andReg x y) := by
  refine ⟨rfl, fun loose => ?_⟩
  simp only [Instr.row, OpcodeRow.selects, encode, wordXYN_selected]; decide

theorem xorReg (x y : Reg) : Statement (.xorReg x y) := by
  refine ⟨rfl, fun loose => ?_⟩
  simp only [Instr.row, OpcodeRow.selects, encode, wordXYN_selected]; decide

theorem addReg (x y : Reg) : Statement (.addReg x y) := by
  refine ⟨rfl, fun loose => ?_⟩
  simp only [Instr.row, OpcodeRow.selects, encode, wordXYN_selected]; decide

theorem sub (x y : Reg) : Statement (.sub x y) := by
  refine ⟨rfl, fun loose => ?_⟩
  simp only [Instr.row, OpcodeRow.selects, encode, wordXYN_selected]; decide

theorem shr (x y : Reg) : Statement (.shr x y) := by
  refine ⟨rfl, fun loose => ?_⟩
  simp only [Instr.row, OpcodeRow.selects, encode, wordXYN_selected]; decide

theorem subn (x y : Reg) : Statement (.subn x y) := by
  refine ⟨rfl, fun loose => ?_⟩
  simp only [Instr.row, OpcodeRow.selects, encode, wordXYN_selected]; decide

theorem shl (x y : Reg) : Statement (.shl x y) := by
  refine ⟨rfl, fun loose => ?_⟩
  simp only [Instr.row, OpcodeRow.selects, encode, wordXYN_selected]; decide

theorem sneReg (x y : Reg) : Statement (.sneReg x y) := by
  refine ⟨rfl, fun loose => ?_⟩
  cases loose
  · simp only [Instr.row, OpcodeRow.selects, encode, Bool.false_eq_true, if_false, wordXYN_selected]; decide
  · simp only [Instr.row, OpcodeRow.selects, encode, if_true, wordXYN_group]; decide

theorem ldI (nnn : Addr12) : Statement (.ldI nnn) := by
  refine ⟨rfl, fun loose => ?_⟩
  simp only [Instr.row, OpcodeRow.selects, encode, wordNNN_group]; decide

theorem jpV0 (nnn : Addr12) : Statement (.jpV0 nnn) := by
  refine ⟨rfl, fun loose => ?_⟩
  simp only [Instr.row, OpcodeRow.selects, encode, wordNNN_group]; decide

theorem rnd (x : Reg) (nn : Byte) : Statement (.rnd x nn) := by
  refine ⟨rfl, fun loose => ?_⟩
  simp only [Instr.row, OpcodeRow.selects, encode, wordXNN_group]; decide

theorem drw (x y : Reg) (n : Fin 16) : Statement (.drw x y n) := by
  refine ⟨rfl, fun loose => ?_⟩
  simp only [Instr.row, OpcodeRow.selects, encode, wordXYN_group]; decide

theorem skp (x : Reg) : Statement (.skp x) := by
  refine ⟨rfl, fun loose => ?_⟩
  simp only [Instr.row, OpcodeRow.selects, encode, wordXNN_selected]; decide

theorem sknp (x : Reg) : Statement (.sknp x) := by
  refine ⟨rfl, fun loose => ?_⟩
  simp only [Instr.row, OpcodeRow.selects, encode, wordXNN_selected]; decide

theorem ldVxDt (x : Reg) : Statement (.ldVxDt x) := by
  refine ⟨rfl, fun loose => ?_⟩
  simp only [Instr.row, OpcodeRow.selects, encode, wordXNN_selected]; decide

theorem ldVxK (x : Reg) : Statement (.ldVxK x) := by
  refine ⟨rfl, fun loose => ?_⟩
  simp only [Instr.row, OpcodeRow.selects, encode, wordXNN_selected]; decide

theorem ldDtVx (x : Reg) : Statement (.ldDtVx x) := by
  refine ⟨rfl, fun loose => ?_⟩
  simp only [Instr.row, OpcodeRow.selects, encode, wordXNN_selected]; decide

theorem ldStVx (x : Reg) : Statement (.ldStVx x) := by
  refine ⟨rfl, fun loose => ?_⟩
  simp only [Instr.row, OpcodeRow.selects, encode, wordXNN_selected]; decide

theorem addIVx (x : Reg) : Statement (.addIVx x) := by
  refine ⟨rfl, fun loose => ?_⟩
  simp only [Instr.row, OpcodeRow.selects, encode, wordXNN_selected]; decide

theorem ldFVx (x : Reg) : Statement (.ldFVx x) := by
  refine ⟨rfl, fun loose => ?_⟩
  simp only [Instr.row, OpcodeRow.selects, encode, wordXNN_selected]; decide

theorem ldBVx (x : Reg) : Statement (.ldBVx x) := by
  refine ⟨rfl, fun loose => ?_⟩
  simp only [Instr.row, OpcodeRow.selects, encode, wordXNN_selected]; decide

theorem ldMemVx (x : Reg) : Statement (.ldMemVx x) := by
  refine ⟨rfl, fun loose => ?_⟩
  simp only [Instr.row, OpcodeRow.selects, encode, wordXNN_selected]; decide

theorem ldVxMem (x : Reg) : Statement (.ldVxMem x) := by
  refine ⟨rfl, fun loose => ?_⟩
  simp only [Instr.row, OpcodeRow.selects, encode, wordXNN_selected]; decide

end Sys2Proof.Laws.OpcodeRow
end

