-- ==== Sys2Proof/Laws/Step.lean ====
section
/-! SUPPORT. What a step can do, said once (40_cycle.md R120), and what `exec` can do to memory, to the parameters and to
the control state, over all instructions. -/

namespace Sys2Proof.Machine

/-! ### The step -/

theorem step_of_instr {s : State} {i : Instr} (hpc : s.pc.toNat ≤ 0xFFE)
    (h : decode s.params.looseSkipDecode (s.fetch16 s.pc.toNat) = .instr i) : step s = exec i s.advance := by
  simp [step, fetch_of_le hpc, h]

theorem step_of_unknown {s : State} {u : Word} (hpc : s.pc.toNat ≤ 0xFFE)
    (h : decode s.params.looseSkipDecode (s.fetch16 s.pc.toNat) = .unknown u) : step s = .next s.advance := by
  simp [step, fetch_of_le hpc, h]

theorem step_of_bad_pc {s : State} (hpc : s.pc.toNat > 0xFFE) : step s = .fault .fetchOutOfRange := by
  simp [step, fetch_of_gt hpc, raise]

theorem decode_cases (loose : Bool) (w : Word) : (∃ i, decode loose w = .instr i) ∨ decode loose w = .unknown w := by
  cases h : decode loose w with
  | instr i => exact .inl ⟨i, rfl⟩
  | unknown u => exact .inr (by rw [decode_unknown_word h])

/-- A step either faults at the fetch, or only advances on an unknown word, or executes the decoded instruction. -/
theorem step_cases (s : State) :
    (s.pc.toNat > 0xFFE ∧ step s = .fault .fetchOutOfRange) ∨
    (s.pc.toNat ≤ 0xFFE ∧ decode s.params.looseSkipDecode (s.fetch16 s.pc.toNat) = .unknown (s.fetch16 s.pc.toNat) ∧
      step s = .next s.advance) ∨
    (s.pc.toNat ≤ 0xFFE ∧ ∃ i, decode s.params.looseSkipDecode (s.fetch16 s.pc.toNat) = .instr i ∧
      step s = exec i s.advance) := by
  rcases Nat.lt_or_ge 0xFFE s.pc.toNat with h | h
  · exact .inl ⟨h, step_of_bad_pc h⟩
  · rcases decode_cases s.params.looseSkipDecode (s.fetch16 s.pc.toNat) with ⟨i, hi⟩ | hu
    · exact .inr (.inr ⟨h, i, hi, step_of_instr h hi⟩)
    · exact .inr (.inl ⟨h, hu, step_of_unknown h hu⟩)

/-- A step to a next state was fetched inside memory, and is an advance or an executed instruction. -/
theorem step_next_cases {s t : State} (h : step s = .next t) :
    s.pc.toNat ≤ 0xFFE ∧ (t = s.advance ∨
      ∃ i, decode s.params.looseSkipDecode (s.fetch16 s.pc.toNat) = .instr i ∧ exec i s.advance = .next t) := by
  rcases step_cases s with ⟨_, hs⟩ | ⟨hpc, _, hs⟩ | ⟨hpc, i, hi, hs⟩ <;> rw [hs] at h
  · cases h
  · exact ⟨hpc, .inl (Host.Outcome.next.inj h).symm⟩
  · exact ⟨hpc, .inr ⟨i, hi, h⟩⟩

theorem advance_pc_toNat {s : State} (h : s.pc.toNat ≤ 0xFFE) : (s.pc + 2).toNat = s.pc.toNat + 2 := by
  rw [BitVec.toNat_add]; simp; omega

/-! ### CALL and RET through the stack operations -/

theorem exec_call_of_lt {s : State} (nnn : Addr12) (h : s.sp.val < 16) :
    exec (.call nnn) s = .next
      (State.setPc { s with stack := s.stack.set s.sp.val s.pc, sp := ⟨s.sp.val + 1, by omega⟩ } (zext16 nnn)) := by
  simp only [exec, execCall, push_of_lt s.pc h]

theorem exec_call_of_full {s : State} (nnn : Addr12) (h : s.sp.val = 16) :
    exec (.call nnn) s = .fault .stackOverflow := by
  simp only [exec, execCall, push_of_full s.pc h]; rfl

theorem exec_ret_of_pos {s : State} {j : Fin 16} (h : s.sp.val = j.val + 1) :
    exec .ret s = .next (State.setPc { s with sp := ⟨j.val, by omega⟩ } (s.slot j)) := by
  simp only [exec, execRet, pop_of_pos h]

theorem exec_ret_of_zero {s : State} (h : s.sp.val = 0) : exec .ret s = .fault .stackUnderflow := by
  simp only [exec, execRet, pop_of_zero h]; rfl

/-! ### The step port -/

theorem stepResult_of_instr {s : State} {i : Instr} (hpc : s.pc.toNat ≤ 0xFFE)
    (h : decode s.params.looseSkipDecode (s.fetch16 s.pc.toNat) = .instr i) :
    stepResult s = match exec i s.advance with
      | .next _ => .ok
      | .fault k => .fault k
      | .refused r => .refused r := by
  simp only [stepResult, fetch_of_le hpc, h] <;> cases exec i s.advance <;> rfl

theorem stepResult_of_unknown {s : State} {u : Word} (hpc : s.pc.toNat ≤ 0xFFE)
    (h : decode s.params.looseSkipDecode (s.fetch16 s.pc.toNat) = .unknown u) : stepResult s = .unknown u := by
  simp [stepResult, fetch_of_le hpc, h]

theorem stepResult_of_bad_pc {s : State} (hpc : s.pc.toNat > 0xFFE) : stepResult s = .fault .fetchOutOfRange := by
  simp [stepResult, fetch_of_gt hpc]

/-! ### Runs of steps -/

theorem run_zero (s : State) : Host.Core.run Sys2Proof.core 0 s = .next s := by
  simp only [Host.Core.run]

theorem run_succ_next (k : Nat) {s t : State} (h : step s = .next t) :
    Host.Core.run Sys2Proof.core (k + 1) s = Host.Core.run Sys2Proof.core k t := by
  have h' : Sys2Proof.core.step s = .next t := h
  simp only [Host.Core.run, h']

theorem run_succ_fault (k : Nat) {s : State} {f : Fault} (h : step s = .fault f) :
    Host.Core.run Sys2Proof.core (k + 1) s = .fault f := by
  have h' : Sys2Proof.core.step s = .fault f := h
  simp only [Host.Core.run, h']

/-! ### The executed instruction, over all constructors -/

@[simp] theorem length_decimalDigits (b : Byte) : (decimalDigits b).length = 3 := rfl

@[simp] theorem foldl_setReg_params (f : Reg → Byte) (l : List Reg) (s : State) :
    (l.foldl (fun t q => t.setReg q (f q)) s).params = s.params := by
  induction l generalizing s with
  | nil => rfl
  | cons q l ih => rw [List.foldl_cons, ih]; rfl

@[simp] theorem loadRegs_params (s : State) (x : Reg) : (s.loadRegs (regsUpTo x)).params = s.params :=
  foldl_setReg_params _ _ _

/-- An instruction that gives a next state left memory alone, or stored bytes at I inside memory and above the font (R64,
R66); and it kept the parameters. -/
theorem exec_memory {i : Instr} {s t : State} (h : exec i s = .next t) :
    t.params = s.params ∧ (t.mem = s.mem ∨ ∃ bs : List Byte, s.idx.toNat + bs.length ≤ 0x1000 ∧ 0x50 ≤ s.idx.toNat ∧
      t.mem = Memory.writeAll s.params s.mem s.idx.toNat bs) := by
  cases i
  case ret =>
    simp only [exec, execRet] at h
    split at h
    · next w u hp => obtain ⟨j, _, _, rfl⟩ := pop_ok hp; cases h; exact ⟨rfl, .inl rfl⟩
    · cases h
  case call nnn =>
    simp only [exec, execCall] at h
    split at h
    · next u hp => obtain ⟨j, _, rfl⟩ := push_ok hp; cases h; exact ⟨rfl, .inl rfl⟩
    · cases h
  case skp x =>
    simp only [exec, execSkp] at h
    split at h
    · cases h; rw [State.skipIf_eq]; exact ⟨rfl, .inl rfl⟩
    · cases h
  case sknp x =>
    simp only [exec, execSknp] at h
    split at h
    · cases h; rw [State.skipIf_eq]; exact ⟨rfl, .inl rfl⟩
    · cases h
  case ldVxK x =>
    simp only [exec, execLdVxK] at h
    split at h <;> (cases h; exact ⟨rfl, .inl rfl⟩)
  case drw x y n =>
    simp only [exec, execDrw] at h
    split at h
    · cases h; exact ⟨rfl, .inl rfl⟩
    · cases h
  case ldVxMem x =>
    simp only [exec, execLdVxMem] at h
    split at h
    · cases h; simp
    · cases h
  case ldBVx x =>
    obtain ⟨h1, h2, rfl⟩ := storeAtIdx_cases (by simp) h
    exact ⟨rfl, .inr ⟨_, h1, h2, rfl⟩⟩
  case ldMemVx x =>
    obtain ⟨h1, h2, rfl⟩ := storeAtIdx_cases (by simp) h
    exact ⟨rfl, .inr ⟨_, h1, h2, rfl⟩⟩
  case seImm => cases h; rw [State.skipIf_eq]; exact ⟨rfl, .inl rfl⟩
  case sneImm => cases h; rw [State.skipIf_eq]; exact ⟨rfl, .inl rfl⟩
  case seReg => cases h; rw [State.skipIf_eq]; exact ⟨rfl, .inl rfl⟩
  case sneReg => cases h; rw [State.skipIf_eq]; exact ⟨rfl, .inl rfl⟩
  all_goals cases h; exact ⟨rfl, .inl rfl⟩

end Sys2Proof.Machine
end

