-- ==== Sys2Proof/Tests/Slice0.lean ====
section
/-! SUPPORT. The model's own tests. Expected values come from the spec: 95_test_vectors.md (S1 to S10 and its sections
2.1 to 2.8) and the examples inside the instruction rules. Then one witness per statement that has hypotheses: a concrete
state and operands that meet them together, each clause at a boundary of its range. -/

namespace Sys2Proof.Tests

open Sys2Proof.Machine

/-! ### Helpers -/

abbrev Result := Host.Outcome State Fault Refusal

/-- A view of the next state. -/
def after {α : Type} (f : State → α) : Result → Option α
  | .next t => some (f t)
  | _ => none

/-- The fault a result ends in. -/
def stop : Result → Option Fault
  | .fault k => some k
  | _ => none

/-- Reset, with registers set. -/
def withRegs (l : List (Reg × Byte)) : State := l.foldl (fun s p => s.setReg p.1 p.2) State.reset

/-- Reset, with I and registers set. -/
def withIdx (i : Word) (l : List (Reg × Byte)) : State := (withRegs l).setIdx i

/-- A word placed where the next step fetches. -/
def placed (w : Nat) (s : State) : State := s.withFetchWord 16 w

/-- Reset, with SP set. -/
def withSp (n : Fin 17) : State := { State.reset with sp := n }

/-- Reset, with one key held. -/
def holding (k : Key) (s : State) : State := s.setKey k true

/-- pc at the last fetchable address, with 6001 there (section 2.2). -/
def lastWord : State := placed 0x6001 (State.reset.setPc 0xFFE)

/-- An 8x1 sprite of 0xFF at I = 0x300, origin (60, 0) (S6). -/
def spriteAtEdge : State := (withIdx 0x300 [(0, 60)]).writeByte 0x300 0xFF

/-- The display after a draw over another display: pixels (0,0) and (0,1) on. -/
def twoPixelsOn : State :=
  { (withIdx 0x300 []).writeByte 0x300 0xC0 with disp := (Display.clear.toggle 0 0).toggle 0 1 }

/-! ### Well-formedness: no ill-formed instruction term exists (fields carry their bounds); the ROM check refuses -/

theorem test_wellFormed_every_row : rowSamples.all Instr.wellFormed = true := by decide
theorem test_romFits_refuses_3585 : romFits (List.replicate 3585 0) = false := by
  rw [romFits, List.length_replicate]; rfl
theorem test_romFits_accepts_3584 : romFits (List.replicate 3584 0) = true := by
  rw [romFits, List.length_replicate]; rfl

/-! ### Decoding: every constructor's word, bit by bit from the layouts of R92 and the rows of R95 -/

theorem test_decode_control_flow (loose : Bool) :
    decode loose 0b0000000011101110 = .instr .ret ∧
    decode loose 0b0001101010111100 = .instr (.jp 0xABC) ∧
    decode loose 0b0010001100000001 = .instr (.call 0x301) ∧
    decode loose 0b0011001100000111 = .instr (.seImm 3 0x07) ∧
    decode loose 0b0100001100001000 = .instr (.sneImm 3 0x08) ∧
    decode loose 0b0101000100100000 = .instr (.seReg 1 2) ∧
    decode loose 0b1001000100100000 = .instr (.sneReg 1 2) ∧
    decode loose 0b1011001100000010 = .instr (.jpV0 0x302) := by cases loose <;> decide

theorem test_decode_alu (loose : Bool) :
    decode loose 0b0110101001000010 = .instr (.ldImm 10 0x42) ∧
    decode loose 0b0111000000000001 = .instr (.addImm 0 0x01) ∧
    decode loose 0b1000000100100000 = .instr (.ldReg 1 2) ∧
    decode loose 0b1000000100100001 = .instr (.orReg 1 2) ∧
    decode loose 0b1000000100100010 = .instr (.andReg 1 2) ∧
    decode loose 0b1000000100100011 = .instr (.xorReg 1 2) ∧
    decode loose 0b1000000100100100 = .instr (.addReg 1 2) ∧
    decode loose 0b1000000100100101 = .instr (.sub 1 2) ∧
    decode loose 0b1000001101000110 = .instr (.shr 3 4) ∧
    decode loose 0b1000000100100111 = .instr (.subn 1 2) ∧
    decode loose 0b1000001101001110 = .instr (.shl 3 4) ∧
    decode loose 0b1100001100001111 = .instr (.rnd 3 0x0F) := by cases loose <;> decide

theorem test_decode_index_memory (loose : Bool) :
    decode loose 0b1010001011110000 = .instr (.ldI 0x2F0) ∧
    decode loose 0b1111001000011110 = .instr (.addIVx 2) ∧
    decode loose 0b1111010000101001 = .instr (.ldFVx 4) ∧
    decode loose 0b1111000000110011 = .instr (.ldBVx 0) ∧
    decode loose 0b1111000101010101 = .instr (.ldMemVx 1) ∧
    decode loose 0b1111111101100101 = .instr (.ldVxMem 15) := by cases loose <;> decide

theorem test_decode_display_keypad_timers (loose : Bool) :
    decode loose 0b0000000011100000 = .instr .cls ∧
    decode loose 0b1101000100100000 = .instr (.drw 1 2 0) ∧
    decode loose 0b1101000000011111 = .instr (.drw 0 1 15) ∧
    decode loose 0b1110000110011110 = .instr (.skp 1) ∧
    decode loose 0b1110000110100001 = .instr (.sknp 1) ∧
    decode loose 0b1111010100000111 = .instr (.ldVxDt 5) ∧
    decode loose 0b1111001100001010 = .instr (.ldVxK 3) ∧
    decode loose 0b1111010100010101 = .instr (.ldDtVx 5) ∧
    decode loose 0b1111010100011000 = .instr (.ldStVx 5) := by cases loose <;> decide

/-- Section 2.1: unknown words, and the two that P_LOOSE_SKIP_DECODE decides. -/
theorem test_decode_unknown :
    [0x0000, 0x01E0, 0x0123, 0x5121, 0x8128, 0x812F, 0x9121, 0xE19F, 0xF100, 0xF1FF].all
      (fun w => decide (decode false w = .unknown w)) = true ∧
    decode true 0x5121 = .instr (.seReg 1 2) ∧ decode true 0x9121 = .instr (.sneReg 1 2) := by decide

theorem test_decodeBytes_is_big_endian :
    decodeBytes false [0xA2, 0xF0, 0x55] = .instr (.ldI 0x2F0) [0x55] ∧ decodeBytes false [0x12] = .truncated ∧
    encodeBytes (.ldI 0x2F0) = [0xA2, 0xF0] := by decide

theorem test_table_words : decodeTableWord 16 0xFF65 = some (.ldVxMem 15) ∧ decodeTableWord 16 0x5121 = none ∧
    (opcodeMap false).length = 34 := by decide

/-- The spec's own notation (R101, R102 and the listings of section 3). -/
theorem test_notation :
    asmText (.addImm 0 0xFF) = "ADD V0, 0xFF" ∧ asmText (.drw 10 1 5) = "DRW VA, V1, 0x5" ∧
    assemble [.shrOne 3, .shlOne 3, .db 0xFF, .dw 0x1234, .instr (.jp 0x208)] =
      [0x83, 0x06, 0x83, 0x0E, 0xFF, 0x12, 0x34, 0x12, 0x08] := by decide

/-! ### The cycle (section 2.2) -/

theorem test_fetch_last_word : after (fun t => (t.reg 0, t.pc)) (step lastWord) = some (0x01, 0x1000) := by decide
theorem test_fetch_beyond : stop (step (State.reset.setPc 0xFFF)) = some .fetchOutOfRange ∧
    stop (step (State.reset.setPc 0x1000)) = some .fetchOutOfRange := by decide
theorem test_odd_pc : after (fun t => (t.reg 10, t.pc)) (step (placed 0x6A42 (State.reset.setPc 0x201))) =
    some (0x42, 0x203) := by decide
theorem test_unknown_word : after (·.pc) (step (placed 0x812B State.reset)) = some 0x202 ∧
    stepResult (placed 0x812B State.reset) = .unknown 0x812B := by decide

/-! ### Control flow (section 2.3) -/

theorem test_jp : after (·.pc) (step (placed 0x1ABC State.reset)) = some 0xABC := by decide
theorem test_call : after (fun t => (t.slot 0, t.sp, t.pc)) (step (placed 0x2400 State.reset)) = some (0x202, 1, 0x400) := by
  decide
theorem test_call_last_slot : after (fun t => (t.slot 15, t.sp, t.pc)) (step (placed 0x2400 (withSp 15))) =
    some (0x202, 16, 0x400) ∧ stop (step (placed 0x2400 (withSp 16))) = some .stackOverflow := by decide
theorem test_ret : after (fun t => (t.pc, t.sp, t.slot 0)) (step (placed 0x00EE { withSp 1 with stack := (withSp 1).stack.set 0 0x202 })) =
    some (0x202, 0, 0x202) ∧ stop (step (placed 0x00EE State.reset)) = some .stackUnderflow := by decide
theorem test_jp_v0_no_mask : after (·.pc) (step (placed 0xBFFF (withRegs [(0, 0xFF)]))) = some 0x10FE := by decide
theorem test_se_imm : after (·.pc) (step (placed 0x3307 (withRegs [(3, 0x07)]))) = some 0x204 ∧
    after (·.pc) (step (placed 0x3308 (withRegs [(3, 0x07)]))) = some 0x202 := by decide
theorem test_sne_imm : after (·.pc) (step (placed 0x4308 (withRegs [(3, 0x07)]))) = some 0x204 := by decide
theorem test_se_reg : after (·.pc) (step (placed 0x5120 (withRegs [(1, 9), (2, 9)]))) = some 0x204 := by decide
theorem test_sne_reg : after (·.pc) (step (placed 0x9120 (withRegs [(1, 9), (2, 9)]))) = some 0x202 := by decide

/-! ### ALU (section 2.4): (Vx, VF) after -/

theorem test_ld_imm : after (·.reg 10) (exec (.ldImm 10 0x42) State.reset) = some 0x42 := by decide
theorem test_add_imm : after (fun t => (t.reg 0, t.reg 15)) (exec (.addImm 0 1) (withRegs [(0, 0xFF), (15, 7)])) =
    some (0, 7) := by decide
theorem test_ld_reg : after (·.reg 1) (exec (.ldReg 1 2) (withRegs [(2, 0x33)])) = some 0x33 := by decide
theorem test_or : after (fun t => (t.reg 1, t.reg 15)) (exec (.orReg 1 2) (withRegs [(1, 0x0F), (2, 0xF0), (15, 1)])) =
    some (0xFF, 1) := by decide
theorem test_and : after (·.reg 1) (exec (.andReg 1 2) (withRegs [(1, 0x3C), (2, 0x0F)])) = some 0x0C := by decide
theorem test_xor : after (·.reg 1) (exec (.xorReg 1 2) (withRegs [(1, 0xFF), (2, 0x0F)])) = some 0xF0 := by decide
theorem test_add_reg : after (fun t => (t.reg 1, t.reg 15)) (exec (.addReg 1 2) (withRegs [(1, 0xFF), (2, 1)])) = some (0, 1) ∧
    after (fun t => (t.reg 1, t.reg 15)) (exec (.addReg 1 2) (withRegs [(1, 0x80), (2, 0x7F)])) = some (0xFF, 0) := by decide
theorem test_add_reg_vf : after (·.reg 15) (exec (.addReg 15 1) (withRegs [(15, 0xFF), (1, 1)])) = some 1 ∧
    after (fun t => (t.reg 1, t.reg 15)) (exec (.addReg 1 15) (withRegs [(15, 1), (1, 0xFF)])) = some (0, 1) := by decide
theorem test_sub : after (fun t => (t.reg 1, t.reg 15)) (exec (.sub 1 2) (withRegs [(1, 5), (2, 5)])) = some (0, 1) ∧
    after (fun t => (t.reg 1, t.reg 15)) (exec (.sub 1 2) (withRegs [(1, 0x10), (2, 0x20)])) = some (0xF0, 0) := by decide
theorem test_subn : after (fun t => (t.reg 1, t.reg 15)) (exec (.subn 1 2) (withRegs [(1, 0x10), (2, 0x30)])) = some (0x20, 1) ∧
    after (fun t => (t.reg 1, t.reg 15)) (exec (.subn 1 2) (withRegs [(1, 0x30), (2, 0x10)])) = some (0xE0, 0) := by decide
theorem test_shr : after (fun t => (t.reg 3, t.reg 15)) (exec (.shr 3 4) (withRegs [(3, 5), (4, 0xFF)])) = some (2, 1) ∧
    after (fun t => (t.reg 1, t.reg 15)) (exec (.shr 1 2) (withRegs [(1, 0xFE), (2, 1)])) = some (0x7F, 0) := by decide
theorem test_shl : after (fun t => (t.reg 3, t.reg 15)) (exec (.shl 3 0) (withRegs [(3, 0x81)])) = some (2, 1) ∧
    after (·.reg 15) (exec (.shl 15 0) (withRegs [(15, 0x80)])) = some 1 := by decide
/-- The spec's example is about the draw 0xB7, which no test can force: it is checked on the masking alone. -/
theorem test_rnd_masks : (State.reset.setMasked 3 0x0F 0xB7).reg 3 = 0x07 ∧ (State.reset.setMasked 3 0x00 0xB7).reg 3 = 0 := by
  decide

/-! ### Index and memory (section 2.5) -/

theorem test_ld_i : after (·.idx) (exec (.ldI 0x2F0) State.reset) = some 0x2F0 := by decide
theorem test_add_i : after (fun t => (t.idx, t.reg 15)) (exec (.addIVx 0) (withIdx 0xFFF [(0, 1), (15, 9)])) = some (0x1000, 9) ∧
    after (·.idx) (exec (.addIVx 0) (withIdx 0xFFFF [(0, 2)])) = some 1 := by decide
theorem test_ld_f : after (·.idx) (exec (.ldFVx 0) (withRegs [(0, 0x0F)])) = some 0x04B ∧
    after (·.idx) (exec (.ldFVx 0) (withRegs [(0, 0xFF)])) = some 0x4FB := by decide
theorem test_ld_b : after (fun t => (t.readByte 0x300, t.readByte 0x301, t.readByte 0x302)) (exec (.ldBVx 0) (withIdx 0x300 [(0, 0xEA)])) =
    some (2, 3, 4) := by decide
theorem test_ld_b_stops : stop (exec (.ldBVx 0) (withIdx 0xFFE [])) = some .memoryOutOfRange ∧
    stop (exec (.ldBVx 0) (withIdx 0x04F [])) = some .fontWrite := by decide
theorem test_store_regs : after (fun t => (t.readByte 0xFF0, t.readByte 0xFFF, t.idx)) (exec (.ldMemVx 15) (withIdx 0xFF0 [(0, 7), (15, 0xF)])) =
    some (7, 0xF, 0xFF0) ∧ stop (exec (.ldMemVx 15) (withIdx 0xFF1 [])) = some .memoryOutOfRange := by decide
theorem test_load_regs : after (fun t => (t.reg 0, t.reg 1)) (exec (.ldVxMem 0) (withIdx 0 [(1, 0x55)])) = some (0xF0, 0x55) ∧
    stop (exec (.ldVxMem 0) (withIdx 0x1000 [])) = some .memoryOutOfRange := by decide

/-! ### Display (section 2.6, S6) -/

theorem test_cls : after (fun t => (t.pixel 0 0, t.pixel 0 1)) (exec .cls twoPixelsOn) = some (false, false) := by decide
theorem test_draw_wraps_columns :
    after (fun t => [t.pixel 0 59, t.pixel 0 60, t.pixel 0 63, t.pixel 0 0, t.pixel 0 3, t.pixel 0 4]) (exec (.drw 0 1 1) spriteAtEdge) =
      some [false, true, true, true, true, false] := by decide
theorem test_draw_collides :
    after (fun t => (t.pixel 0 0, t.pixel 0 1, t.reg 15)) (exec (.drw 0 1 1) twoPixelsOn) = some (false, false, 1) := by decide
theorem test_draw_wraps_rows :
    after (fun t => (t.pixel 31 0, t.pixel 0 0, t.reg 15))
      (exec (.drw 0 1 2) (((withIdx 0x300 [(1, 0x1F)]).writeByte 0x300 0x80).writeByte 0x301 0x80)) = some (true, true, 0) := by decide
theorem test_draw_origin_before_vf :
    after (fun t => (t.pixel 2 5, t.reg 15)) (exec (.drw 15 1 1) ((withIdx 0x300 [(15, 5), (1, 2)]).writeByte 0x300 0x80)) =
      some (true, 0) := by decide
theorem test_draw_height_zero_and_range : after (·.reg 15) (exec (.drw 1 2 0) (withIdx 0x5000 [(15, 1)])) = some 0 ∧
    stop (exec (.drw 0 1 2) (withIdx 0xFFF [])) = some .memoryOutOfRange := by decide

/-! ### Keypad and timers (section 2.7) -/

theorem test_skp : after (·.pc) (step (placed 0xE19E (holding 5 (withRegs [(1, 5)])))) = some 0x204 ∧
    stop (step (placed 0xE19E (withRegs [(1, 0x10)]))) = some .keyOutOfRange := by decide
theorem test_sknp : after (·.pc) (step (placed 0xE1A1 (withRegs [(1, 5)]))) = some 0x204 ∧
    after (·.pc) (step (placed 0xE1A1 (holding 5 (withRegs [(1, 5)])))) = some 0x202 := by decide
theorem test_wait_for_key : after (fun t => (t.pc, t.reg 3)) (step (placed 0xF30A (withRegs [(3, 9)]))) = some (0x200, 9) := by decide
theorem test_key_arrives : after (·.pc) (step (placed 0xF30A (holding 0xB State.reset))) = some 0x202 := by decide
theorem test_key_chosen : (holding 0xB State.reset).heldKeys = [0xB] ∧ chooseKey 5 0xB [] = 0xB ∧ chooseKey 5 2 [9] ∈ [2, 9] := by
  decide
theorem test_delay_timer : after (fun t => (t.reg 5, t.dt)) (exec (.ldVxDt 5) (State.reset.setDt 0x3C)) = some (0x3C, 0x3C) ∧
    after (·.dt) (exec (.ldDtVx 5) (withRegs [(5, 0x3C)])) = some 0x3C := by decide
theorem test_sound_timer : after (fun t => (t.st, tone t)) (exec (.ldStVx 5) (withRegs [(5, 2)])) = some (2, true) := by decide
theorem test_tick : (tickTimers ((State.reset.setDt 0).setSt 3)).dt = 0 ∧ (tickTimers ((State.reset.setDt 0).setSt 3)).st = 2 ∧
    tone (tickTimers (State.reset.setSt 1)) = false ∧ tick 5 = 4 := by decide

/-! ### Load, reset, mutators (section 2.8) -/

theorem test_load : (transact State.reset (.load [0x12, 0x00])).1.readByte 0x200 = 0x12 ∧
    (transact State.reset (.load [0x12, 0x00])).2 = .loaded ∧
    (transact (State.reset.writeByte 0x202 0x77) (.load [0x12, 0x00])).1.readByte 0x202 = 0x77 := by decide
theorem test_load_oversize : (transact State.reset (.load (List.replicate 3585 0))).2 = .oversizeROM := by
  rw [transact, load, test_romFits_refuses_3585]; rfl
theorem test_reset_memory : State.reset.readByte 0 = 0xF0 ∧ State.reset.readByte 0x4F = 0x80 ∧ State.reset.readByte 0x50 = 0 ∧
    State.reset.readByte 0x32 = 0xF0 := by decide
theorem test_mutators : (transact State.reset (.mutate .sp 17)).2 = .rangeError ∧
    peek .sp (transact State.reset (.mutate .sp 16)).1 = some 16 ∧ (transact State.reset (.keySet 16 true)).2 = .rangeError := by decide
theorem test_result_codes : Fault.code .stackOverflow = 0x10 ∧ (PortResult.stepped (.unknown 0)).code = some 1 ∧
    PortResult.code .rangeError = some 0x21 := by decide

/-- The host's probe: from reset, a placed table word is what the next step runs. -/
theorem test_probe : after (·.pc) (step (State.reset.withFetchWord 16 0x1234)) = some 0x234 ∧
    after (·.idx) (step ((State.reset.setPc 0x1000).withFetchWord 16 0xA123)) = some 0x123 := by decide

/-! ### Witnesses: states and operands that meet a statement's hypotheses, clause by clause -/

theorem exists_next {P : State → Prop} [DecidablePred P] {r : Result} (h : after (fun t => decide (P t)) r = some true) :
    ∃ t, r = .next t ∧ P t := by
  cases r with
  | next t => exact ⟨t, rfl, by simpa [after] using h⟩
  | fault k => simp [after] at h
  | refused k => simp [after] at h

theorem exists_fault {k : Fault} {r : Result} (h : stop r = some k) : r = .fault k := by
  cases r <;> simp_all [stop]

/-- pc = 0xFFE, the last fetchable address. -/
theorem witness_StepRunsDecodedInstruction : ∃ (s : State) (w : Word) (i : Instr), s.pc.toNat ≤ 0xFFE ∧ s.pc = 0xFFE ∧
    w.toNat = (s.readByte s.pc.toNat).toNat * 256 + (s.readByte (s.pc.toNat + 1)).toNat ∧
    decode s.params.looseSkipDecode w = .instr i := ⟨lastWord, 0x6001, .ldImm 0 1, by decide⟩

theorem witness_UnknownOpcodeOnlyAdvances : ∃ (s : State) (w : Word), s.pc.toNat ≤ 0xFFE ∧
    w.toNat = (s.readByte s.pc.toNat).toNat * 256 + (s.readByte (s.pc.toNat + 1)).toNat ∧
    ∀ i, decode s.params.looseSkipDecode w ≠ .instr i :=
  ⟨State.reset, 0, by decide, by decide, fun i h => by
    rw [show decode State.reset.params.looseSkipDecode 0 = .unknown 0 by decide] at h; cases h⟩

theorem witness_FetchOutsideMemoryFaults : (State.reset.setPc 0xFFF).pc.toNat > 0xFFE := by decide

theorem witness_StepPortReportsAndRollsBack : (∃ s k, step s = .fault k) ∧ ∃ s t, step s = .next t :=
  ⟨⟨withSp 0 |> placed 0x00EE, .stackUnderflow, exists_fault (by decide)⟩, State.reset, _, rfl⟩

theorem witness_DecodeInvertsEncode : (Instr.drw 15 0 15).wellFormed = true := by decide

theorem witness_EncodeInvertsStrictDecode : decode false 0x5120 = .instr (.seReg 1 2) := by decide

theorem witness_DecodeAgreesWithOpcodeMap : ∃ (w : Word) (r q : OpcodeRow), r ∈ opcodeMap false ∧ q ∈ opcodeMap false ∧
    w &&& r.mask = r.pattern ∧ w &&& q.mask = q.pattern ∧ decode false w = .instr (.seReg 1 2) :=
  ⟨0x5120, ⟨0xF00F, 0x5000⟩, ⟨0xF00F, 0x5000⟩, by decide⟩

theorem witness_LooseSkipDecoding : (1 : BitVec 4) ≠ 0 ∧ (15 : BitVec 4) ≠ 0 := by decide

theorem witness_JumpSetsProgramCounter : ∃ nnn : Addr12, nnn = 0xFFF := ⟨_, rfl⟩

/-- The sums 0xFFE and 0xFFF, on either side of the fetch check. -/
theorem witness_JumpWithOffsetAddsV0 : ∃ (nnn : Addr12) (s : State), (s.reg 0).toNat + nnn.toNat > 0xFFE ∧
    (s.reg 0).toNat + nnn.toNat = 0xFFF := ⟨0xF00, withRegs [(0, 0xFF)], by decide⟩

/-- SP = 15 pushes and SP = 16 faults. -/
theorem witness_CallPushesReturnAddress : (withSp 15).sp.val < 16 ∧ (withSp 16).sp.val = 16 := by decide

/-- SP = 1 and 16 pop and SP = 0 faults. -/
theorem witness_ReturnPopsReturnAddress : (withSp 1).sp.val = (0 : Fin 16).val + 1 ∧ (withSp 16).sp.val = (15 : Fin 16).val + 1 ∧
    (withSp 0).sp.val = 0 := by decide

theorem witness_CallThenReturnComesBack : (withSp 15).sp.val < 16 ∧ ∃ t, exec (.call 0x400) (withSp 15) = .next t ∧
    ∃ u : State, u.sp = t.sp ∧ ∀ j : Fin 16, j.val < t.sp.val → u.slot j = t.slot j :=
  ⟨by decide, _, rfl, _, rfl, fun _ _ => rfl⟩

/-- A taken skip at 0xFFC, whose new pc 0x1000 is the first that cannot be fetched. -/
theorem witness_TakenSkipPassesOverOneWord : ∃ (s : State) (i : Instr), s.pc.toNat ≤ 0xFFE ∧
    decode s.params.looseSkipDecode (s.fetch16 s.pc.toNat) = .instr i ∧ SkipTaken s i ∧ s.pc.toNat + 4 > 0xFFE :=
  ⟨placed 0x3000 (State.reset.setPc 0xFFC), .seImm 0 0, by decide, by decide, rfl, by decide⟩

/-- x ≠ vf, for the add, the subtractions and the shifts. -/
theorem witness_flag_destinations : (0 : Reg) ≠ vf ∧ (14 : Reg) ≠ vf := by decide

/-- I at 0x050 and 0xFFD store, at 0xFFE and 0x04F fault. -/
theorem witness_StoreDecimalDigits :
    (0x04F < (withIdx 0x050 []).idx.toNat ∧ (withIdx 0x050 []).idx.toNat + 2 ≤ 0xFFF) ∧
    (0x04F < (withIdx 0xFFD []).idx.toNat ∧ (withIdx 0xFFD []).idx.toNat + 2 ≤ 0xFFF) ∧
    (withIdx 0xFFE []).idx.toNat + 2 > 0xFFF ∧ (withIdx 0x04F []).idx.toNat ≤ 0x04F := by decide

/-- x = 0xF: I at 0x050 and 0xFF0 store, at 0xFF1 and 0x04F fault. -/
theorem witness_StoreRegistersAtI :
    (0x04F < (withIdx 0x050 []).idx.toNat ∧ (withIdx 0x050 []).idx.toNat + (15 : Reg).val ≤ 0xFFF) ∧
    (0x04F < (withIdx 0xFF0 []).idx.toNat ∧ (withIdx 0xFF0 []).idx.toNat + (15 : Reg).val ≤ 0xFFF) ∧
    (withIdx 0xFF1 []).idx.toNat + (15 : Reg).val > 0xFFF ∧ (withIdx 0x04F []).idx.toNat ≤ 0x04F := by decide

theorem witness_LoadRegistersFromI : (withIdx 0xFF0 []).idx.toNat + (15 : Reg).val ≤ 0xFFF ∧
    (withIdx 0xFF1 []).idx.toNat + (15 : Reg).val > 0xFFF := by decide

theorem witness_StoreThenLoadRestores : ∃ s t u : State, exec (.ldMemVx 15) s = .next t ∧ u.idx = s.idx ∧
    ∀ r : Reg, r ≤ 15 → u.readByte (s.idx.toNat + r.val) = t.readByte (s.idx.toNat + r.val) := by
  obtain ⟨t, h, hi⟩ := exists_next (P := fun t => t.idx = 0x400) (r := exec (.ldMemVx 15) (withIdx 0x400 [(0, 0x11)])) (by decide)
  exact ⟨_, t, t, h, hi, fun _ _ => rfl⟩

/-- Height 0 with I outside memory; height 1 at I = 0xFFF; height 2 at I = 0xFFF faults; with and without a collision. -/
theorem witness_DrawTogglesCoveredPixels : ((0 : Fin 16).val = 0 ∨ (withIdx 0x5000 []).idx.toNat + 0 - 1 ≤ 0xFFF) ∧
    (withIdx 0xFFF []).idx.toNat + (1 : Fin 16).val - 1 ≤ 0xFFF ∧
    (1 ≤ (2 : Fin 16).val ∧ (withIdx 0xFFF []).idx.toNat + (2 : Fin 16).val - 1 > 0xFFF) ∧
    (∃ r c, twoPixelsOn.pixel r c = true ∧ SpriteCovers twoPixelsOn 0 1 1 r c) ∧
    ¬ ∃ r c, (withIdx 0x300 []).pixel r c = true ∧ SpriteCovers (withIdx 0x300 []) 0 1 1 r c := by
  refine ⟨by decide, by decide, by decide, ⟨0, 1, by decide, 0, 1, by decide⟩, ?_⟩
  rintro ⟨r, c, h, -⟩
  simp [State.pixel, withIdx, withRegs, State.setIdx, State.reset, State.resetWith] at h

theorem witness_DrawTwiceRestoresDisplay : ∃ s t : State, exec (.drw 0 1 1) s = .next t ∧ t.reg 0 = s.reg 0 ∧ t.reg 1 = s.reg 1 :=
  ⟨spriteAtEdge, exists_next (by decide)⟩

/-- V[x] = 0xF names a key, 0x10 does not. -/
theorem witness_KeySkipsReadTheKey : ((withRegs [(1, 0xF)]).reg 1).toNat = (15 : Key).val ∧
    ((withRegs [(1, 0x10)]).reg 1).toNat > 0xF := by decide

theorem witness_WaitForKeyStoresAHeldKey : (∀ k, State.reset.key k = false) ∧ ∃ k, (holding 15 State.reset).key k = true := by
  decide

theorem witness_WaitingStepChangesNothing : ∃ (s : State) (x : Reg), s.pc.toNat ≤ 0xFFE ∧
    decode s.params.looseSkipDecode (s.fetch16 s.pc.toNat) = .instr (.ldVxK x) ∧ ∀ k, s.key k = false :=
  ⟨placed 0xF30A State.reset, 3, by decide⟩

theorem witness_SoundTimerDrivesTone : (State.reset.setSt 1).st = 1 := by decide

/-- 3584 bytes load, 3585 do not. -/
theorem witness_LoadCopiesRom : (List.replicate 3584 (0 : Byte)).length ≤ 3584 ∧ 3583 < (List.replicate 3584 (0 : Byte)).length ∧
    (List.replicate 3585 (0 : Byte)).length > 3584 := by
  rw [List.length_replicate, List.length_replicate]; omega

theorem witness_KeySetWritesOneKey : (∃ s t : State, step s = .next t) ∧ 16 > 15 := ⟨⟨State.reset, _, rfl⟩, by decide⟩

theorem witness_ResetEstablishesInitialState : 79 < 80 ∧ 80 ≤ 80 ∧ 4095 < 4096 := by decide

theorem witness_MutatorsCheckTheirRange :
    (Mutable.InRange 16 .sp ∧ ¬ Mutable.InRange 17 .sp) ∧ (Mutable.InRange 255 (.mem 0xFFF) ∧ ¬ Mutable.InRange 0 (.mem 0x1000)) ∧
    (Mutable.InRange 0xFFFF .pc ∧ ¬ Mutable.InRange 0x10000 .pc) ∧ (Mutable.InRange 255 (.reg 15) ∧ ¬ Mutable.InRange 256 (.reg 15)) ∧
    (Mutable.InRange 0xFFFF (.slot 15) ∧ ¬ Mutable.InRange 0 (.slot 16)) ∧ (Mutable.InRange 255 .dt ∧ ¬ Mutable.InRange 256 .st) := by
  simp [Mutable.InRange]

theorem witness_ReadsReturnTheirElement : (31 * 64 + 63 < 2048) ∧ 16 ≤ 16 ∧ 0xFFF ≤ 0xFFF ∧ 0x1000 > 0xFFF ∧ (32 ≤ 32 ∨ 64 ≤ 0) := by
  decide

theorem witness_StepsWithoutLoadClimbToTheEnd : 1792 ≤ 1792 ∧ 1791 < 1792 := by decide

theorem witness_ReadAfterWriteIsLastWrite : (0x300 : Nat) ≠ 0xFFF ∧ 0xFFF < 4096 ∧ MemoryCanonical spriteAtEdge :=
  ⟨by decide, by decide, by unfold MemoryCanonical; decide⟩

/-- LD [I], VF with pc at its first and last pair of bytes; LD B, V0 with pc at I and I + 1, I as high as it may be. -/
theorem witness_StoredWordIsFetchedNext :
    (∃ t, exec (.ldMemVx 15) ((withIdx 0xFF0 []).setPc 0xFF0) = .next t ∧ (1 : Reg) ≤ 15 ∧ (1 : Reg).val = (0 : Reg).val + 1 ∧
      ((withIdx 0xFF0 []).setPc 0xFF0).pc.toNat = ((withIdx 0xFF0 []).setPc 0xFF0).idx.toNat + (0 : Reg).val) ∧
    (∃ t, exec (.ldMemVx 15) ((withIdx 0xFF0 []).setPc 0xFFE) = .next t ∧ (15 : Reg).val = (14 : Reg).val + 1 ∧
      ((withIdx 0xFF0 []).setPc 0xFFE).pc.toNat = ((withIdx 0xFF0 []).setPc 0xFFE).idx.toNat + (14 : Reg).val) ∧
    (∃ t, exec (.ldBVx 0) ((withIdx 0xFFD []).setPc 0xFFD) = .next t ∧
      ((withIdx 0xFFD []).setPc 0xFFD).pc.toNat = ((withIdx 0xFFD []).setPc 0xFFD).idx.toNat) ∧
    (∃ t, exec (.ldBVx 0) ((withIdx 0xFFD []).setPc 0xFFE) = .next t ∧
      ((withIdx 0xFFD []).setPc 0xFFE).pc.toNat = ((withIdx 0xFFD []).setPc 0xFFE).idx.toNat + 1 ∧
      ((withIdx 0xFFD []).setPc 0xFFE).pc.toNat ≤ 0xFFE) := by
  refine ⟨?_, ?_, ?_, ?_⟩ <;> exact exists_next (by decide)

theorem witness_FontAreaNeverChanges : ∃ (s t : State) (a : Nat), step s = .next t ∧ a < 80 ∧ a = 79 :=
  ⟨State.reset, _, 79, rfl, by decide⟩

/-- Each kind of MachineFault is met by a step. -/
theorem witness_StepFaultsExactlyWhenSpecified :
    step (placed 0x2200 (withSp 16)) = .fault .stackOverflow ∧ step (placed 0x00EE (withSp 0)) = .fault .stackUnderflow ∧
    step (placed 0xF065 (withIdx 0x1000 [])) = .fault .memoryOutOfRange ∧ step (State.reset.setPc 0xFFF) = .fault .fetchOutOfRange ∧
    step (placed 0xF055 (withIdx 0x04F [])) = .fault .fontWrite ∧ step (placed 0xE19E (withRegs [(1, 0x10)])) = .fault .keyOutOfRange := by
  refine ⟨?_, ?_, ?_, ?_, ?_, ?_⟩ <;> exact exists_fault (by decide)

theorem witness_FaultRepeatsUntilStateChanges : ∃ (s t : State) (k : Fault), step s = .fault k ∧ t.pc = s.pc ∧ t.sp = s.sp ∧
    t.idx = s.idx ∧ (∀ r, t.reg r = s.reg r) ∧ t.params = s.params ∧ t.fetch16 t.pc.toNat = s.fetch16 s.pc.toNat ∧
    ∃ n b u, keySet n b s = some u :=
  ⟨placed 0x00EE State.reset, tickTimers (placed 0x00EE State.reset), .stackUnderflow, exists_fault (by decide), rfl, rfl, rfl,
    fun _ => rfl, rfl, rfl, 15, true, _, rfl⟩

/-- Every clause of the statement has an instruction that writes that part. -/
theorem witness_OnlyNamedInstructionsWrite :
    (∃ t, exec (.ldImm 0 1) State.reset = .next t ∧ t.reg 0 ≠ State.reset.reg 0) ∧
    (∃ t, exec (.ldI 1) State.reset = .next t ∧ t.idx ≠ State.reset.idx) ∧
    (∃ t, exec (.call 1) State.reset = .next t ∧ (t.sp ≠ State.reset.sp ∨ ∃ j, t.slot j ≠ State.reset.slot j)) ∧
    (∃ t, exec (.drw 0 1 1) spriteAtEdge = .next t ∧ t.pixel 0 60 ≠ spriteAtEdge.pixel 0 60) ∧
    (∃ t, exec (.ldDtVx 0) (withRegs [(0, 1)]) = .next t ∧ t.dt ≠ (withRegs [(0, 1)]).dt) ∧
    (∃ t, exec (.ldStVx 0) (withRegs [(0, 1)]) = .next t ∧ t.st ≠ (withRegs [(0, 1)]).st) ∧
    (∃ t, exec (.ldMemVx 0) (withIdx 0x300 [(0, 1)]) = .next t ∧ t.readByte 0x300 ≠ (withIdx 0x300 [(0, 1)]).readByte 0x300) ∧
    (∃ t, exec (.seImm 0 0) State.reset = .next t ∧ t.pc ≠ State.reset.pc) ∧
    (∃ t, exec (.ldVxK 0) State.reset = .next t ∧ t.pc ≠ State.reset.pc) ∧
    ∃ t, exec (.rnd 0 0) State.reset = .next t ∧ t.draws ≠ State.reset.draws := by
  refine ⟨?_, ?_, ?_, ?_, ?_, ?_, ?_, ?_, ?_, ?_⟩ <;> exact exists_next (by decide)

theorem witness_FlagRegisterWriters : ∃ t, exec (.addReg 1 2) (withRegs [(1, 0xFF), (2, 1)]) = .next t ∧
    t.reg vf ≠ (withRegs [(1, 0xFF), (2, 1)]).reg vf := exists_next (by decide)

/-- A run with no Fault, and one that a Fault ends after two other results. -/
theorem witness_RunEndsAtFirstFault :
    (∀ r ∈ (runTransactions [.tickTimers, .keySet 16 true] State.reset).2, r.isFault = false) ∧
    ∃ r ∈ (runTransactions [.tickTimers, .mutate .pc 0xFFF, .step] State.reset).2, r.isFault = true := by decide

/-- The tick behind the Fault is not answered (R318). -/
theorem test_run_ends_at_fault :
    (runTransactions [.tickTimers, .mutate .pc 0xFFF, .step, .tickTimers] State.reset).2 =
      [.done, .done, .stepped (.fault .fetchOutOfRange)] := by decide

theorem witness_StepKeepsInvariant : ∃ s t : State, Invariant s ∧ step s = .next t :=
  ⟨State.reset, _, ⟨rfl, (by decide : (0x200#16).toNat ≤ 0x10FE), by decide⟩, rfl⟩

theorem witness_ContractRunsKeepInvariantAndFont : ContractReachable (tickTimers State.reset) := .tick (.reset _)

end Sys2Proof.Tests
end

section
/-! SUPPORT. Proofs about unknown opcodes (30_encoding.md R97). -/

namespace Sys2Proof.Machine

/-- The word fetched at an address is the one whose value is that of the two bytes there, high byte first (R62). -/
theorem eq_fetch16_of_toNat {s : State} {a : Nat} {w : Word}
    (h : w.toNat = (s.readByte a).toNat * 256 + (s.readByte (a + 1)).toNat) : w = s.fetch16 a :=
  BitVec.eq_of_toNat_eq (h.trans (fetch16_toNat s a).symm)

/-- The advance of R122 touches nothing but pc. -/
theorem frame_advance (s : State) : Frame [.pc] s s.advance := frame_setPc s (s.pc + 2)

/-- Settles O2: a word that is no instruction is unknown by `decode_cases`, and the step on an unknown word is the
advance. -/
theorem unknownOpcodeOnlyAdvances : Obligations.UnknownOpcodeOnlyAdvances := by
  refine ⟨decode_cases, fun s w hpc hw hnone => ?_⟩
  obtain rfl : w = s.fetch16 s.pc.toNat := eq_fetch16_of_toNat hw
  have hunknown : decode s.params.looseSkipDecode (s.fetch16 s.pc.toNat) = .unknown (s.fetch16 s.pc.toNat) :=
    (decode_cases _ _).resolve_left fun ⟨i, hi⟩ => hnone i hi
  exact ⟨s.advance, step_of_unknown hpc hunknown, advance_pc_toNat hpc, frame_advance s⟩

end Sys2Proof.Machine
end

section
/-! SUPPORT. Proofs about the port tick_timers (40_cycle.md R130). -/

namespace Sys2Proof.Machine

/-- A timer at 0 has no underflow: the tick leaves it alone (R130). -/
theorem tick_of_zero {b : Byte} (h : b.toNat = 0) : tick b = b := if_neg (by omega)

/-- Above 0 the byte subtraction is the subtraction of numbers. -/
theorem tick_toNat_of_pos {b : Byte} (h : b.toNat > 0) : (tick b).toNat = b.toNat - 1 := by
  have hsub : tick b = b - 1 := if_pos h
  rw [hsub]
  bv_omega

theorem tick_toNat (b : Byte) : (tick b).toNat = if b.toNat > 0 then b.toNat - 1 else 0 := by
  split
  case isTrue hpos => exact tick_toNat_of_pos hpos
  case isFalse hzero =>
    have hb : b.toNat = 0 := by omega
    rw [tick_of_zero hb, hb]

@[simp] theorem tickTimers_dt (s : State) : (tickTimers s).dt = tick s.dt := rfl

@[simp] theorem tickTimers_st (s : State) : (tickTimers s).st = tick s.st := rfl

/-- The frame of R130: the two timer writes, each with its own frame, one after the other. -/
theorem frame_tickTimers (s : State) : Frame [.dt, .st] s (tickTimers s) :=
  FrameBut.trans ((frame_setDt s (tick s.dt)).mono fun p hp => by simp_all)
    ((frame_setSt _ (tick s.st)).mono fun p hp => by simp_all)

/-- Settles O41: each timer's new value is its own tick, and the frame is that of the two timer writes. -/
theorem tickTimersCountsDown : Obligations.TickTimersCountsDown := fun s =>
  ⟨tickTimers_dt s ▸ tick_toNat s.dt, tickTimers_st s ▸ tick_toNat s.st, frame_tickTimers s⟩

end Sys2Proof.Machine
end

section
/-! SUPPORT. Proofs about the skips on an immediate (30_encoding.md R94, 41_control_flow.md R149, R150). -/

namespace Sys2Proof

/-- Group 3 is SE Vx, nn (R94). -/
theorem decode_of_group_3 (loose : Bool) {w : Word} (h : groupOf w = 0x3) :
    decode loose w = .instr (.seImm (xOf w) (nnOf w)) := by
  simp only [decode, h]

/-- Group 4 is SNE Vx, nn (R94). -/
theorem decode_of_group_4 (loose : Bool) {w : Word} (h : groupOf w = 0x4) :
    decode loose w = .instr (.sneImm (xOf w) (nnOf w)) := by
  simp only [decode, h]

end Sys2Proof

namespace Sys2Proof.Machine

theorem decodesTo_seImm (x : Reg) (nn : Byte) : DecodesTo (wordXNN 0x3 x nn) (.seImm x nn) := by
  intro loose
  rw [decode_of_group_3 loose (groupOf_wordXNN 0x3 x nn), xOf_wordXNN, nnOf_wordXNN]

theorem decodesTo_sneImm (x : Reg) (nn : Byte) : DecodesTo (wordXNN 0x4 x nn) (.sneImm x nn) := by
  intro loose
  rw [decode_of_group_4 loose (groupOf_wordXNN 0x4 x nn), xOf_wordXNN, nnOf_wordXNN]

theorem exec_seImm (x : Reg) (nn : Byte) (s : State) : exec (.seImm x nn) s = .next (s.skipIf (s.reg x == nn)) := rfl

theorem exec_sneImm (x : Reg) (nn : Byte) (s : State) : exec (.sneImm x nn) s = .next (s.skipIf (s.reg x != nn)) := rfl

theorem skipIf_beq_pc (s : State) (a b : Byte) : (s.skipIf (a == b)).pc = if a = b then s.pc + 2 else s.pc := by
  simp only [State.skipIf_pc, beq_iff_eq]

theorem skipIf_bne_pc (s : State) (a b : Byte) : (s.skipIf (a != b)).pc = if a = b then s.pc else s.pc + 2 := by
  simp only [State.skipIf_pc, bne_iff_ne, ne_eq, ite_not]

/-- Settles O16: the words are `wordXNN` of groups 3 and 4, and each instruction is `skipIf` on its comparison, whose frame
is pc alone. -/
theorem skipOnImmediate : Obligations.SkipOnImmediate := fun x nn s =>
  ⟨decodesTo_seImm x nn, decodesTo_sneImm x nn,
    ⟨_, exec_seImm x nn s, skipIf_beq_pc s (s.reg x) nn, frame_skipIf s _⟩,
    ⟨_, exec_sneImm x nn s, skipIf_bne_pc s (s.reg x) nn, frame_skipIf s _⟩⟩

end Sys2Proof.Machine
end

section
/-! SUPPORT. Proofs about the register instructions with no flag: LD, ADD Vx, nn, OR, AND and XOR (30_encoding.md R94,
42_alu.md R171 to R176). Each is one `setReg`, so its frame is V[x] alone. -/

namespace Sys2Proof

/-- Group 6 is LD Vx, nn (R94). -/
theorem decode_of_group_6 (loose : Bool) {w : Word} (h : groupOf w = 0x6) :
    decode loose w = .instr (.ldImm (xOf w) (nnOf w)) := by
  simp only [decode, h]

/-- Group 7 is ADD Vx, nn (R94). -/
theorem decode_of_group_7 (loose : Bool) {w : Word} (h : groupOf w = 0x7) :
    decode loose w = .instr (.addImm (xOf w) (nnOf w)) := by
  simp only [decode, h]

/-- Group 8 is left to its sub-selector (R94). -/
theorem decode_of_group_8 (loose : Bool) {w : Word} (h : groupOf w = 0x8) : decode loose w = decodeGroup8 w := by
  simp only [decode, h]

end Sys2Proof

namespace Sys2Proof.Machine

/-! ### The words -/

theorem decodesTo_ldImm (x : Reg) (nn : Byte) : DecodesTo (wordXNN 0x6 x nn) (.ldImm x nn) := by
  intro loose
  rw [decode_of_group_6 loose (groupOf_wordXNN 0x6 x nn), xOf_wordXNN, nnOf_wordXNN]

theorem decodesTo_addImm (x : Reg) (nn : Byte) : DecodesTo (wordXNN 0x7 x nn) (.addImm x nn) := by
  intro loose
  rw [decode_of_group_7 loose (groupOf_wordXNN 0x7 x nn), xOf_wordXNN, nnOf_wordXNN]

/-- A word of group 8 decodes to what its sub-selector picks, whatever P_LOOSE_SKIP_DECODE is. -/
theorem decodesTo_of_decodeGroup8 {x y : Reg} {n : BitVec 4} {i : Instr}
    (h : decodeGroup8 (wordXYN 0x8 x y n) = .instr i) : DecodesTo (wordXYN 0x8 x y n) i :=
  fun loose => (decode_of_group_8 loose (groupOf_wordXYN 0x8 x y n)).trans h

theorem decodesTo_ldReg (x y : Reg) : DecodesTo (wordXYN 0x8 x y 0x0) (.ldReg x y) :=
  decodesTo_of_decodeGroup8 (by simp [decodeGroup8])

theorem decodesTo_orReg (x y : Reg) : DecodesTo (wordXYN 0x8 x y 0x1) (.orReg x y) :=
  decodesTo_of_decodeGroup8 (by simp [decodeGroup8])

theorem decodesTo_andReg (x y : Reg) : DecodesTo (wordXYN 0x8 x y 0x2) (.andReg x y) :=
  decodesTo_of_decodeGroup8 (by simp [decodeGroup8])

theorem decodesTo_xorReg (x y : Reg) : DecodesTo (wordXYN 0x8 x y 0x3) (.xorReg x y) :=
  decodesTo_of_decodeGroup8 (by simp [decodeGroup8])

/-! ### The one register write of each instruction -/

theorem exec_ldImm (x : Reg) (nn : Byte) (s : State) : exec (.ldImm x nn) s = .next (s.setReg x nn) := rfl

theorem exec_addImm (x : Reg) (nn : Byte) (s : State) : exec (.addImm x nn) s = .next (s.setReg x (s.reg x + nn)) := rfl

theorem exec_ldReg (x y : Reg) (s : State) : exec (.ldReg x y) s = .next (s.setReg x (s.reg y)) := rfl

theorem exec_orReg (x y : Reg) (s : State) : exec (.orReg x y) s = .next (s.setReg x (s.reg x ||| s.reg y)) := rfl

theorem exec_andReg (x y : Reg) (s : State) : exec (.andReg x y) s = .next (s.setReg x (s.reg x &&& s.reg y)) := rfl

theorem exec_xorReg (x y : Reg) (s : State) : exec (.xorReg x y) s = .next (s.setReg x (s.reg x ^^^ s.reg y)) := rfl

/-! ### The obligations -/

/-- Settles O19: the words are of group 6 and of group 8 with n = 0, and each instruction is one register write. -/
theorem loadImmediateAndCopy : Obligations.LoadImmediateAndCopy := fun x y nn s =>
  ⟨decodesTo_ldImm x nn, decodesTo_ldReg x y,
    ⟨_, exec_ldImm x nn s, State.setReg_reg_self s x nn, frame_setReg s x nn⟩,
    ⟨_, exec_ldReg x y s, State.setReg_reg_self s x (s.reg y), frame_setReg s x (s.reg y)⟩⟩

/-- Settles O20: the word is of group 7, and the byte written is the sum of bytes, which wraps modulo 256. -/
theorem addImmediateWraps : Obligations.AddImmediateWraps := fun x nn s =>
  ⟨decodesTo_addImm x nn, _, exec_addImm x nn s,
    by rw [State.setReg_reg_self, BitVec.toNat_add], frame_setReg s x (s.reg x + nn)⟩

/-- Settles O21: the words are of group 8 with n = 1, 2 and 3, and the byte written is the or, and, exclusive or of the
two bytes, which acts on each bit alone. -/
theorem logicOperationsBitwise : Obligations.LogicOperationsBitwise := fun x y s =>
  ⟨decodesTo_orReg x y, decodesTo_andReg x y, decodesTo_xorReg x y,
    ⟨_, exec_orReg x y s, frame_setReg s x _, fun b => by rw [State.setReg_reg_self, BitVec.getLsbD_or]⟩,
    ⟨_, exec_andReg x y s, frame_setReg s x _, fun b => by rw [State.setReg_reg_self, BitVec.getLsbD_and]⟩,
    ⟨_, exec_xorReg x y s, frame_setReg s x _, fun b => by rw [State.setReg_reg_self, BitVec.getLsbD_xor]⟩⟩

end Sys2Proof.Machine
end

section
/-! SUPPORT. Proofs about the loads of I: LD I, nnn and LD F, Vx (30_encoding.md R94, 43_index_memory.md R210, R214). Each
is one `setIdx`, so its frame is I alone. -/

namespace Sys2Proof

/-- Group A is LD I, nnn (R94). -/
theorem decode_of_group_A (loose : Bool) {w : Word} (h : groupOf w = 0xA) : decode loose w = .instr (.ldI (nnnOf w)) := by
  simp only [decode, h]

/-- Group F is left to its sub-selector (R94). -/
theorem decode_of_group_F (loose : Bool) {w : Word} (h : groupOf w = 0xF) : decode loose w = decodeGroupF w := by
  simp only [decode, h]

end Sys2Proof

namespace Sys2Proof.Machine

theorem decodesTo_ldI (nnn : Addr12) : DecodesTo (wordNNN 0xA nnn) (.ldI nnn) := by
  intro loose
  rw [decode_of_group_A loose (groupOf_wordNNN 0xA nnn), nnnOf_wordNNN]

/-- A word of group F decodes to what its sub-selector picks, whatever P_LOOSE_SKIP_DECODE is. -/
theorem decodesTo_of_decodeGroupF {x : Reg} {nn : Byte} {i : Instr}
    (h : decodeGroupF (wordXNN 0xF x nn) = .instr i) : DecodesTo (wordXNN 0xF x nn) i :=
  fun loose => (decode_of_group_F loose (groupOf_wordXNN 0xF x nn)).trans h

theorem decodesTo_ldFVx (x : Reg) : DecodesTo (wordXNN 0xF x 0x29) (.ldFVx x) :=
  decodesTo_of_decodeGroupF (by simp [decodeGroupF])

theorem exec_ldI (nnn : Addr12) (s : State) : exec (.ldI nnn) s = .next (s.setIdx (zext16 nnn)) := rfl

theorem exec_ldFVx (x : Reg) (s : State) : exec (.ldFVx x) s = .next (s.setIdx ((s.reg x).setWidth 16 * 5)) := rfl

/-- Five times a byte fits in a word, so the product of R214 does not wrap. -/
theorem setWidth_mul_five_toNat (b : Byte) : (b.setWidth 16 * 5).toNat = b.toNat * 5 := by
  bv_omega

/-- Five times a byte is at most 0x4FB, the last address R214 can give. -/
theorem byte_mul_five_le (b : Byte) : b.toNat * 5 ≤ 1275 := by
  bv_omega

/-- Settles O26: the word is `wordNNN` of group A, and zero extension keeps the value of nnn. -/
theorem loadIndexSetsI : Obligations.LoadIndexSetsI := fun nnn s =>
  ⟨decodesTo_ldI nnn, _, exec_ldI nnn s, zext16_toNat nnn, frame_setIdx s (zext16 nnn)⟩

/-- Settles O28: the word is of group F with nn = 0x29, and the product is taken in 16 bits, where it does not wrap. -/
theorem fontPointerIsFiveTimesVx : Obligations.FontPointerIsFiveTimesVx := fun x s =>
  have hidx := setWidth_mul_five_toNat (s.reg x)
  ⟨decodesTo_ldFVx x, _, exec_ldFVx x s, hidx, hidx.trans_le (byte_mul_five_le (s.reg x)), frame_setIdx s _⟩

end Sys2Proof.Machine
end

section
/-! SUPPORT. Proofs about CLS (30_encoding.md R94, 44_display.md R240): one `setDisp`, so its frame is the pixels alone. -/

namespace Sys2Proof

/-- Group 0 holds two instructions, matched on the whole word (R94, D14). -/
theorem decode_of_group_0 (loose : Bool) {w : Word} (h : groupOf w = 0x0) :
    decode loose w =
      if w = 0x00E0 then .instr .cls else if w = 0x00EE then .instr .ret else .unknown w := by
  simp only [decode, h]

end Sys2Proof

namespace Sys2Proof.Machine

theorem decodesTo_cls : DecodesTo 0x00E0 .cls := fun loose =>
  (decode_of_group_0 loose (by decide)).trans (if_pos rfl)

theorem exec_cls (s : State) : exec .cls s = .next (s.setDisp Display.clear) := rfl

theorem setDisp_clear_pixel (s : State) (r : Fin 32) (c : Fin 64) : (s.setDisp Display.clear).pixel r c = false := by
  rw [State.setDisp_pixel, Display.get_clear]

/-- Settles O33: the word is CLS's own word of group 0, and the next state is one write of the clear display. -/
theorem clearScreenTurnsEveryPixelOff : Obligations.ClearScreenTurnsEveryPixelOff := fun s =>
  ⟨decodesTo_cls, _, exec_cls s, setDisp_clear_pixel s, frame_setDisp s Display.clear⟩

end Sys2Proof.Machine
end

section
/-! SUPPORT. Proofs about the delay timer's two copies: LD Vx, DT and LD DT, Vx (30_encoding.md R94, 45_keypad_timers.md
R263, R266). The first is one `setReg` and the second one `setDt`, so reading the timer leaves it alone. -/

namespace Sys2Proof.Machine

theorem decodesTo_ldVxDt (x : Reg) : DecodesTo (wordXNN 0xF x 0x07) (.ldVxDt x) :=
  decodesTo_of_decodeGroupF (by simp [decodeGroupF])

theorem decodesTo_ldDtVx (x : Reg) : DecodesTo (wordXNN 0xF x 0x15) (.ldDtVx x) :=
  decodesTo_of_decodeGroupF (by simp [decodeGroupF])

theorem exec_ldVxDt (x : Reg) (s : State) : exec (.ldVxDt x) s = .next (s.setReg x s.dt) := rfl

theorem exec_ldDtVx (x : Reg) (s : State) : exec (.ldDtVx x) s = .next (s.setDt (s.reg x)) := rfl

/-- Settles O39: the words are of group F with nn = 0x07 and 0x15, and each instruction is one write, of V[x] or of DT. -/
theorem delayTimerMoves : Obligations.DelayTimerMoves := fun x s =>
  ⟨decodesTo_ldVxDt x, decodesTo_ldDtVx x,
    ⟨_, exec_ldVxDt x s, State.setReg_reg_self s x s.dt, frame_setReg s x s.dt⟩,
    ⟨_, exec_ldDtVx x s, State.setDt_dt s (s.reg x), frame_setDt s (s.reg x)⟩⟩

end Sys2Proof.Machine
end

section
/-! SUPPORT. The decoder, group by group (30_encoding.md R94), and the word of every instruction: decoding is a left
inverse of encoding (R95). -/

namespace Sys2Proof

/-! ### What each remaining group decodes to (R94, R99) -/

/-- Group 1 is JP nnn (R94). -/
theorem decode_of_group_1 (loose : Bool) {w : Word} (h : groupOf w = 0x1) : decode loose w = .instr (.jp (nnnOf w)) := by
  simp only [decode, h]

/-- Group 2 is CALL nnn (R94). -/
theorem decode_of_group_2 (loose : Bool) {w : Word} (h : groupOf w = 0x2) : decode loose w = .instr (.call (nnnOf w)) := by
  simp only [decode, h]

/-- Group 5 is SE Vx, Vy where n = 0, or always under P_LOOSE_SKIP_DECODE (R99). -/
theorem decode_of_group_5 (loose : Bool) {w : Word} (h : groupOf w = 0x5) :
    decode loose w =
      if (nOf w).val = 0 ∨ loose = true then .instr (.seReg (xOf w) (yOf w)) else .unknown w := by
  simp only [decode, h]

/-- Group 9 is SNE Vx, Vy where n = 0, or always under P_LOOSE_SKIP_DECODE (R99). -/
theorem decode_of_group_9 (loose : Bool) {w : Word} (h : groupOf w = 0x9) :
    decode loose w =
      if (nOf w).val = 0 ∨ loose = true then .instr (.sneReg (xOf w) (yOf w)) else .unknown w := by
  simp only [decode, h]

/-- Group B is JP V0, nnn (R94). -/
theorem decode_of_group_B (loose : Bool) {w : Word} (h : groupOf w = 0xB) : decode loose w = .instr (.jpV0 (nnnOf w)) := by
  simp only [decode, h]

/-- Group C is RND Vx, nn (R94). -/
theorem decode_of_group_C (loose : Bool) {w : Word} (h : groupOf w = 0xC) :
    decode loose w = .instr (.rnd (xOf w) (nnOf w)) := by
  simp only [decode, h]

/-- Group D is DRW Vx, Vy, n (R94). -/
theorem decode_of_group_D (loose : Bool) {w : Word} (h : groupOf w = 0xD) :
    decode loose w = .instr (.drw (xOf w) (yOf w) (nOf w)) := by
  simp only [decode, h]

/-- Group E is left to its sub-selector (R94). -/
theorem decode_of_group_E (loose : Bool) {w : Word} (h : groupOf w = 0xE) : decode loose w = decodeGroupE w := by
  simp only [decode, h]

end Sys2Proof

namespace Sys2Proof.Machine

/-! ### The word of each remaining instruction -/

theorem decodesTo_ret : DecodesTo 0x00EE .ret := fun loose =>
  (decode_of_group_0 loose (by decide)).trans ((if_neg (by decide)).trans (if_pos rfl))

theorem decodesTo_jp (nnn : Addr12) : DecodesTo (wordNNN 0x1 nnn) (.jp nnn) := by
  intro loose
  rw [decode_of_group_1 loose (groupOf_wordNNN 0x1 nnn), nnnOf_wordNNN]

theorem decodesTo_call (nnn : Addr12) : DecodesTo (wordNNN 0x2 nnn) (.call nnn) := by
  intro loose
  rw [decode_of_group_2 loose (groupOf_wordNNN 0x2 nnn), nnnOf_wordNNN]

/-- A word of group 5 with n = 0, or with any n under P_LOOSE_SKIP_DECODE, is SE Vx, Vy (R99). -/
theorem decode_seReg {loose : Bool} (x y : Reg) {n : BitVec 4} (h : n = 0 ∨ loose = true) :
    decode loose (wordXYN 0x5 x y n) = .instr (.seReg x y) := by
  rw [decode_of_group_5 loose (groupOf_wordXYN 0x5 x y n), xOf_wordXYN, yOf_wordXYN, if_pos]
  exact h.imp (fun hn => by rw [hn, nOf_wordXYN]; rfl) id

/-- A word of group 9 with n = 0, or with any n under P_LOOSE_SKIP_DECODE, is SNE Vx, Vy (R99). -/
theorem decode_sneReg {loose : Bool} (x y : Reg) {n : BitVec 4} (h : n = 0 ∨ loose = true) :
    decode loose (wordXYN 0x9 x y n) = .instr (.sneReg x y) := by
  rw [decode_of_group_9 loose (groupOf_wordXYN 0x9 x y n), xOf_wordXYN, yOf_wordXYN, if_pos]
  exact h.imp (fun hn => by rw [hn, nOf_wordXYN]; rfl) id

theorem decodesTo_seReg (x y : Reg) : DecodesTo (wordXYN 0x5 x y 0x0) (.seReg x y) :=
  fun _ => decode_seReg x y (.inl rfl)

theorem decodesTo_sneReg (x y : Reg) : DecodesTo (wordXYN 0x9 x y 0x0) (.sneReg x y) :=
  fun _ => decode_sneReg x y (.inl rfl)

theorem decodesTo_addReg (x y : Reg) : DecodesTo (wordXYN 0x8 x y 0x4) (.addReg x y) :=
  decodesTo_of_decodeGroup8 (by simp [decodeGroup8])

theorem decodesTo_sub (x y : Reg) : DecodesTo (wordXYN 0x8 x y 0x5) (.sub x y) :=
  decodesTo_of_decodeGroup8 (by simp [decodeGroup8])

theorem decodesTo_shr (x y : Reg) : DecodesTo (wordXYN 0x8 x y 0x6) (.shr x y) :=
  decodesTo_of_decodeGroup8 (by simp [decodeGroup8])

theorem decodesTo_subn (x y : Reg) : DecodesTo (wordXYN 0x8 x y 0x7) (.subn x y) :=
  decodesTo_of_decodeGroup8 (by simp [decodeGroup8])

theorem decodesTo_shl (x y : Reg) : DecodesTo (wordXYN 0x8 x y 0xE) (.shl x y) :=
  decodesTo_of_decodeGroup8 (by simp [decodeGroup8])

theorem decodesTo_jpV0 (nnn : Addr12) : DecodesTo (wordNNN 0xB nnn) (.jpV0 nnn) := by
  intro loose
  rw [decode_of_group_B loose (groupOf_wordNNN 0xB nnn), nnnOf_wordNNN]

theorem decodesTo_rnd (x : Reg) (nn : Byte) : DecodesTo (wordXNN 0xC x nn) (.rnd x nn) := by
  intro loose
  rw [decode_of_group_C loose (groupOf_wordXNN 0xC x nn), xOf_wordXNN, nnOf_wordXNN]

theorem decodesTo_drw (x y : Reg) (n : Fin 16) : DecodesTo (wordXYN 0xD x y (regBits n)) (.drw x y n) := by
  intro loose
  rw [decode_of_group_D loose (groupOf_wordXYN 0xD x y _), xOf_wordXYN, yOf_wordXYN, nOf_wordXYN, regBits_toFin]

/-- A word of group E decodes to what its sub-selector picks, whatever P_LOOSE_SKIP_DECODE is. -/
theorem decodesTo_of_decodeGroupE {x : Reg} {nn : Byte} {i : Instr}
    (h : decodeGroupE (wordXNN 0xE x nn) = .instr i) : DecodesTo (wordXNN 0xE x nn) i :=
  fun loose => (decode_of_group_E loose (groupOf_wordXNN 0xE x nn)).trans h

theorem decodesTo_skp (x : Reg) : DecodesTo (wordXNN 0xE x 0x9E) (.skp x) :=
  decodesTo_of_decodeGroupE (by simp [decodeGroupE])

theorem decodesTo_sknp (x : Reg) : DecodesTo (wordXNN 0xE x 0xA1) (.sknp x) :=
  decodesTo_of_decodeGroupE (by simp [decodeGroupE])

theorem decodesTo_ldVxK (x : Reg) : DecodesTo (wordXNN 0xF x 0x0A) (.ldVxK x) :=
  decodesTo_of_decodeGroupF (by simp [decodeGroupF])

theorem decodesTo_ldStVx (x : Reg) : DecodesTo (wordXNN 0xF x 0x18) (.ldStVx x) :=
  decodesTo_of_decodeGroupF (by simp [decodeGroupF])

theorem decodesTo_addIVx (x : Reg) : DecodesTo (wordXNN 0xF x 0x1E) (.addIVx x) :=
  decodesTo_of_decodeGroupF (by simp [decodeGroupF])

theorem decodesTo_ldBVx (x : Reg) : DecodesTo (wordXNN 0xF x 0x33) (.ldBVx x) :=
  decodesTo_of_decodeGroupF (by simp [decodeGroupF])

theorem decodesTo_ldMemVx (x : Reg) : DecodesTo (wordXNN 0xF x 0x55) (.ldMemVx x) :=
  decodesTo_of_decodeGroupF (by simp [decodeGroupF])

theorem decodesTo_ldVxMem (x : Reg) : DecodesTo (wordXNN 0xF x 0x65) (.ldVxMem x) :=
  decodesTo_of_decodeGroupF (by simp [decodeGroupF])

/-- Decoding inverts encoding on words: the lemma of each instruction's word, collected. -/
theorem decodesTo_encode (i : Instr) : DecodesTo (encode i) i := by
  cases i with
  | cls => exact decodesTo_cls
  | ret => exact decodesTo_ret
  | jp nnn => exact decodesTo_jp nnn
  | call nnn => exact decodesTo_call nnn
  | seImm x nn => exact decodesTo_seImm x nn
  | sneImm x nn => exact decodesTo_sneImm x nn
  | seReg x y => exact decodesTo_seReg x y
  | ldImm x nn => exact decodesTo_ldImm x nn
  | addImm x nn => exact decodesTo_addImm x nn
  | ldReg x y => exact decodesTo_ldReg x y
  | orReg x y => exact decodesTo_orReg x y
  | andReg x y => exact decodesTo_andReg x y
  | xorReg x y => exact decodesTo_xorReg x y
  | addReg x y => exact decodesTo_addReg x y
  | sub x y => exact decodesTo_sub x y
  | shr x y => exact decodesTo_shr x y
  | subn x y => exact decodesTo_subn x y
  | shl x y => exact decodesTo_shl x y
  | sneReg x y => exact decodesTo_sneReg x y
  | ldI nnn => exact decodesTo_ldI nnn
  | jpV0 nnn => exact decodesTo_jpV0 nnn
  | rnd x nn => exact decodesTo_rnd x nn
  | drw x y n => exact decodesTo_drw x y n
  | skp x => exact decodesTo_skp x
  | sknp x => exact decodesTo_sknp x
  | ldVxDt x => exact decodesTo_ldVxDt x
  | ldVxK x => exact decodesTo_ldVxK x
  | ldDtVx x => exact decodesTo_ldDtVx x
  | ldStVx x => exact decodesTo_ldStVx x
  | addIVx x => exact decodesTo_addIVx x
  | ldFVx x => exact decodesTo_ldFVx x
  | ldBVx x => exact decodesTo_ldBVx x
  | ldMemVx x => exact decodesTo_ldMemVx x
  | ldVxMem x => exact decodesTo_ldVxMem x

/-- Decoding two bytes decodes the word they make and leaves the rest (R62, R90). -/
theorem decodeBytes_of_decode {loose : Bool} {hi lo : Byte} {i : Instr} (rest : List Byte)
    (h : decode loose (wordOfBytes hi lo) = .instr i) : decodeBytes loose (hi :: lo :: rest) = .instr i rest := by
  simp only [decodeBytes, h]

/-- Settles O6: `decodesTo_encode` on the word, and the two bytes of a word make that word. -/
theorem decodeInvertsEncode : Obligations.DecodeInvertsEncode := fun loose i rest _ =>
  have hword : decode loose (encode i) = .instr i := decodesTo_encode i loose
  ⟨hword, decodeBytes_of_decode rest ((wordOfBytes_bytes (encode i)).symm ▸ hword)⟩

/-! ### Words written out -/

theorem decodesTo_of_encode_eq {i : Instr} {w : Word} (h : encode i = w) : DecodesTo w i := h ▸ decodesTo_encode i

/-- Settles O5: eight words are encodings, so `decodesTo_encode` gives their instruction; the two unknown words are
computed. -/
theorem sampleWordsDecode : Obligations.SampleWordsDecode :=
  ⟨decodesTo_of_encode_eq (by decide), decodesTo_of_encode_eq (by decide), decodesTo_of_encode_eq (by decide),
    decodesTo_of_encode_eq (by decide), decodesTo_of_encode_eq (by decide), decodesTo_of_encode_eq (by decide),
    decodesTo_of_encode_eq (by decide), decodesTo_of_encode_eq (by decide), by decide, by decide⟩

/-! ### P_LOOSE_SKIP_DECODE (R99) -/

theorem nOf_wordXYN_ne_zero (g : BitVec 4) (x y : Reg) {n : BitVec 4} (hn : n ≠ 0) :
    (nOf (wordXYN g x y n)).val ≠ 0 := by
  rw [nOf_wordXYN]
  exact fun h => hn (BitVec.eq_of_toNat_eq h)

/-- Strictly, a word of group 5 with n not 0 is unknown (R99). -/
theorem decode_strict_group_5 (x y : Reg) {n : BitVec 4} (hn : n ≠ 0) :
    decode false (wordXYN 0x5 x y n) = .unknown (wordXYN 0x5 x y n) := by
  rw [decode_of_group_5 false (groupOf_wordXYN 0x5 x y n), if_neg]
  exact fun h => h.elim (nOf_wordXYN_ne_zero 0x5 x y hn) Bool.false_ne_true

/-- Strictly, a word of group 9 with n not 0 is unknown (R99). -/
theorem decode_strict_group_9 (x y : Reg) {n : BitVec 4} (hn : n ≠ 0) :
    decode false (wordXYN 0x9 x y n) = .unknown (wordXYN 0x9 x y n) := by
  rw [decode_of_group_9 false (groupOf_wordXYN 0x9 x y n), if_neg]
  exact fun h => h.elim (nOf_wordXYN_ne_zero 0x9 x y hn) Bool.false_ne_true

/-- Settles O10: the words are `wordXYN` of groups 5 and 9, which with n not 0 decode by the parameter alone. -/
theorem looseSkipDecoding : Obligations.LooseSkipDecoding :=
  ⟨rfl, fun x y _ => ⟨fun hn => ⟨decode_strict_group_5 x y hn, decode_strict_group_9 x y hn⟩,
    decode_seReg x y (.inr rfl), decode_sneReg x y (.inr rfl)⟩⟩

end Sys2Proof.Machine
end

section
/-! SUPPORT. The decoder from the word's side (30_encoding.md R91 to R99): the word of a decoded instruction, the masks and
matches of the opcode map, the unknown words as numbers, and the bytes of the pseudo-instructions (R102). -/

namespace Sys2Proof

/-! ### A word from its group and selector -/

theorem topBits_of_group {w : Word} {g : BitVec 4} (h : groupOf w = g.toNat) : w.extractLsb' 12 4 = g :=
  BitVec.eq_of_toNat_eq h

theorem wordNNN_of_group {w : Word} {g : BitVec 4} (h : groupOf w = g.toNat) : wordNNN g (nnnOf w) = w :=
  topBits_of_group h ▸ wordNNN_fields w

theorem wordXNN_of_group {w : Word} {g : BitVec 4} (h : groupOf w = g.toNat) : wordXNN g (xOf w) (nnOf w) = w :=
  topBits_of_group h ▸ wordXNN_fields w

theorem wordXNN_of_group_nn {w : Word} {g : BitVec 4} {nn : Byte} (h : groupOf w = g.toNat)
    (hnn : (nnOf w).toNat = nn.toNat) : wordXNN g (xOf w) nn = w := by
  rw [← BitVec.eq_of_toNat_eq hnn]
  exact wordXNN_of_group h

theorem wordXYN_of_group_n {w : Word} {g n : BitVec 4} (h : groupOf w = g.toNat) (hn : (nOf w).val = n.toNat) :
    wordXYN g (xOf w) (yOf w) n = w := by
  have hlow : w.extractLsb' 0 4 = n := BitVec.eq_of_toNat_eq hn
  rw [← topBits_of_group h, ← hlow]
  exact wordXYN_fields w

theorem groupOf_lt (w : Word) : groupOf w < 16 := (w.extractLsb' 12 4).isLt

/-! ### The word of a decoded instruction -/

theorem encode_of_decodeGroup8 {w : Word} {i : Instr} (hg : groupOf w = 0x8) (h : decodeGroup8 w = .instr i) :
    encode i = w := by
  unfold decodeGroup8 at h
  split at h <;> cases h
  all_goals
    next hn => exact wordXYN_of_group_n hg hn

theorem encode_of_decodeGroupE {w : Word} {i : Instr} (hg : groupOf w = 0xE) (h : decodeGroupE w = .instr i) :
    encode i = w := by
  unfold decodeGroupE at h
  split at h <;> cases h
  all_goals
    next hnn => exact wordXNN_of_group_nn hg hnn

theorem encode_of_decodeGroupF {w : Word} {i : Instr} (hg : groupOf w = 0xF) (h : decodeGroupF w = .instr i) :
    encode i = w := by
  unfold decodeGroupF at h
  split at h <;> cases h
  all_goals
    next hnn => exact wordXNN_of_group_nn hg hnn

/-- A word P_LOOSE_SKIP_DECODE may make a register skip, whatever its n is: 5xyN or 9xyN (R99). -/
def LooseSkipWord (w : Word) (i : Instr) : Prop :=
  (groupOf w = 0x5 ∧ i = .seReg (xOf w) (yOf w)) ∨ (groupOf w = 0x9 ∧ i = .sneReg (xOf w) (yOf w))

/-- A word that decodes is the encoding of its instruction, but for the register skips that P_LOOSE_SKIP_DECODE adds. -/
theorem encode_of_decode {loose : Bool} {w : Word} {i : Instr} (h : decode loose w = .instr i) :
    encode i = w ∨ (loose = true ∧ LooseSkipWord w i) := by
  have hlt := groupOf_lt w
  interval_cases hg : groupOf w
  · rw [decode_of_group_0 loose hg] at h
    split at h
    · next hw => cases h; exact .inl hw.symm
    · split at h
      · next hw => cases h; exact .inl hw.symm
      · cases h
  · rw [decode_of_group_1 loose hg] at h; cases h; exact .inl (wordNNN_of_group hg)
  · rw [decode_of_group_2 loose hg] at h; cases h; exact .inl (wordNNN_of_group hg)
  · rw [decode_of_group_3 loose hg] at h; cases h; exact .inl (wordXNN_of_group hg)
  · rw [decode_of_group_4 loose hg] at h; cases h; exact .inl (wordXNN_of_group hg)
  · rw [decode_of_group_5 loose hg] at h
    split at h
    · next hn =>
      cases h
      exact hn.imp (wordXYN_of_group_n hg) fun hl => ⟨hl, .inl ⟨hg, rfl⟩⟩
    · cases h
  · rw [decode_of_group_6 loose hg] at h; cases h; exact .inl (wordXNN_of_group hg)
  · rw [decode_of_group_7 loose hg] at h; cases h; exact .inl (wordXNN_of_group hg)
  · exact .inl (encode_of_decodeGroup8 hg (decode_of_group_8 loose hg ▸ h))
  · rw [decode_of_group_9 loose hg] at h
    split at h
    · next hn =>
      cases h
      exact hn.imp (wordXYN_of_group_n hg) fun hl => ⟨hl, .inr ⟨hg, rfl⟩⟩
    · cases h
  · rw [decode_of_group_A loose hg] at h; cases h; exact .inl (wordNNN_of_group hg)
  · rw [decode_of_group_B loose hg] at h; cases h; exact .inl (wordNNN_of_group hg)
  · rw [decode_of_group_C loose hg] at h; cases h; exact .inl (wordXNN_of_group hg)
  · rw [decode_of_group_D loose hg] at h; cases h; exact .inl (wordXYN_of_group_n hg rfl)
  · exact .inl (encode_of_decodeGroupE hg (decode_of_group_E loose hg ▸ h))
  · exact .inl (encode_of_decodeGroupF hg (decode_of_group_F loose hg ▸ h))

end Sys2Proof

namespace Sys2Proof.Machine

/-- Settles O7: a word that decodes is an encoding, but for the loose skips, which strict decoding has none of. -/
theorem encodeInvertsStrictDecode : Obligations.EncodeInvertsStrictDecode := fun _ _ h =>
  (encode_of_decode h).resolve_right fun hloose => Bool.false_ne_true hloose.1

end Sys2Proof.Machine

namespace Sys2Proof

/-! ### The masks and matches of R95 -/

/-- A field that lies under a mask has the value the match gives it. -/
theorem field_of_selects {w m p : Word} (h : w &&& m = p) {k l : Nat} (hm : m.extractLsb' k l = BitVec.allOnes l) :
    w.extractLsb' k l = p.extractLsb' k l := by
  rw [← h, BitVec.extractLsb'_and, hm, BitVec.and_allOnes]

theorem groupOf_of_selects {w m p : Word} (h : w &&& m = p) (hm : m.extractLsb' 12 4 = BitVec.allOnes 4) :
    groupOf w = groupOf p :=
  congrArg BitVec.toNat (field_of_selects h hm)

/-- Mask 0xF00F selects the words of one group and one n (R95). -/
theorem wordXYN_of_selects {w : Word} {g n : BitVec 4} (h : w &&& 0xF00F = wordXYN g 0 0 n) :
    wordXYN g (xOf w) (yOf w) n = w := by
  have hg : groupOf w = g.toNat := (groupOf_of_selects h (by decide)).trans (groupOf_wordXYN g 0 0 n)
  have hn : nOf w = n.toFin :=
    (congrArg BitVec.toFin (field_of_selects h (k := 0) (l := 4) (by decide))).trans (nOf_wordXYN g 0 0 n)
  exact wordXYN_of_group_n hg (congrArg Fin.val hn)

/-- Mask 0xF0FF selects the words of one group and one nn (R95). -/
theorem wordXNN_of_selects {w : Word} {g : BitVec 4} {nn : Byte} (h : w &&& 0xF0FF = wordXNN g 0 nn) :
    wordXNN g (xOf w) nn = w := by
  have hg : groupOf w = g.toNat := (groupOf_of_selects h (by decide)).trans (groupOf_wordXNN g 0 nn)
  have hnn : nnOf w = nn := (field_of_selects h (k := 0) (l := 8) (by decide)).trans (nnOf_wordXNN g 0 nn)
  exact wordXNN_of_group_nn hg (congrArg BitVec.toNat hnn)

/-- Mask 0xF000 selects the words of one group (R95). -/
theorem groupOf_of_selects_group {w : Word} {g : BitVec 4} (h : w &&& 0xF000 = wordNNN g 0) : groupOf w = g.toNat :=
  (groupOf_of_selects h (by decide)).trans (groupOf_wordNNN g 0)

theorem selects_of_groupOf {w : Word} {g : BitVec 4} (h : groupOf w = g.toNat) : w &&& 0xF000 = wordNNN g 0 := by
  rw [← wordNNN_of_group h, wordNNN_group]

/-- Every instruction's own row of R95 selects its word: the lemma of each instruction, collected. -/
theorem opcodeRow_statement (i : Instr) : Laws.OpcodeRow.Statement i := by
  cases i with
  | cls => exact Laws.OpcodeRow.cls
  | ret => exact Laws.OpcodeRow.ret
  | jp nnn => exact Laws.OpcodeRow.jp nnn
  | call nnn => exact Laws.OpcodeRow.call nnn
  | seImm x nn => exact Laws.OpcodeRow.seImm x nn
  | sneImm x nn => exact Laws.OpcodeRow.sneImm x nn
  | seReg x y => exact Laws.OpcodeRow.seReg x y
  | ldImm x nn => exact Laws.OpcodeRow.ldImm x nn
  | addImm x nn => exact Laws.OpcodeRow.addImm x nn
  | ldReg x y => exact Laws.OpcodeRow.ldReg x y
  | orReg x y => exact Laws.OpcodeRow.orReg x y
  | andReg x y => exact Laws.OpcodeRow.andReg x y
  | xorReg x y => exact Laws.OpcodeRow.xorReg x y
  | addReg x y => exact Laws.OpcodeRow.addReg x y
  | sub x y => exact Laws.OpcodeRow.sub x y
  | shr x y => exact Laws.OpcodeRow.shr x y
  | subn x y => exact Laws.OpcodeRow.subn x y
  | shl x y => exact Laws.OpcodeRow.shl x y
  | sneReg x y => exact Laws.OpcodeRow.sneReg x y
  | ldI nnn => exact Laws.OpcodeRow.ldI nnn
  | jpV0 nnn => exact Laws.OpcodeRow.jpV0 nnn
  | rnd x nn => exact Laws.OpcodeRow.rnd x nn
  | drw x y n => exact Laws.OpcodeRow.drw x y n
  | skp x => exact Laws.OpcodeRow.skp x
  | sknp x => exact Laws.OpcodeRow.sknp x
  | ldVxDt x => exact Laws.OpcodeRow.ldVxDt x
  | ldVxK x => exact Laws.OpcodeRow.ldVxK x
  | ldDtVx x => exact Laws.OpcodeRow.ldDtVx x
  | ldStVx x => exact Laws.OpcodeRow.ldStVx x
  | addIVx x => exact Laws.OpcodeRow.addIVx x
  | ldFVx x => exact Laws.OpcodeRow.ldFVx x
  | ldBVx x => exact Laws.OpcodeRow.ldBVx x
  | ldMemVx x => exact Laws.OpcodeRow.ldMemVx x
  | ldVxMem x => exact Laws.OpcodeRow.ldVxMem x

/-- The row of a decoded instruction selects the word: a word that is not the instruction's encoding is a loose skip, whose
row asks for the group alone. -/
theorem selects_of_decode {loose : Bool} {w : Word} {i : Instr} (h : decode loose w = .instr i) :
    w &&& (i.row loose).mask = (i.row loose).pattern := by
  rcases encode_of_decode h with rfl | ⟨rfl, ⟨hg, rfl⟩ | ⟨hg, rfl⟩⟩
  · exact beq_iff_eq.1 ((opcodeRow_statement i).2 loose)
  · exact selects_of_groupOf (g := 0x5) hg
  · exact selects_of_groupOf (g := 0x9) hg

/-- The word decodes to an instruction of the row. -/
def DecodesInRow (loose : Bool) (w : Word) (r : OpcodeRow) : Prop := ∃ i, decode loose w = .instr i ∧ i.row loose = r

theorem decodesInRow_of_encode {loose : Bool} {w : Word} {i : Instr} (h : encode i = w) :
    DecodesInRow loose w (i.row loose) :=
  ⟨i, Machine.decodesTo_of_encode_eq h loose, rfl⟩

/-- A word that an instruction's row selects decodes to an instruction of that row: the word is an encoding with its own
x, y, n, nn and nnn, but for the loose skips, which decode by their group. -/
theorem decodesInRow_of_selects {loose : Bool} {w : Word} (i : Instr)
    (h : w &&& (i.row loose).mask = (i.row loose).pattern) : DecodesInRow loose w (i.row loose) := by
  cases i with
  | cls => exact decodesInRow_of_encode (i := .cls) (h.symm.trans BitVec.and_allOnes)
  | ret => exact decodesInRow_of_encode (i := .ret) (h.symm.trans BitVec.and_allOnes)
  | jp => exact decodesInRow_of_encode (i := .jp (nnnOf w)) (wordNNN_of_group (groupOf_of_selects_group h))
  | call => exact decodesInRow_of_encode (i := .call (nnnOf w)) (wordNNN_of_group (groupOf_of_selects_group h))
  | seImm => exact decodesInRow_of_encode (i := .seImm (xOf w) (nnOf w)) (wordXNN_of_group (groupOf_of_selects_group h))
  | sneImm => exact decodesInRow_of_encode (i := .sneImm (xOf w) (nnOf w)) (wordXNN_of_group (groupOf_of_selects_group h))
  | seReg =>
    cases loose with
    | false => exact decodesInRow_of_encode (i := .seReg (xOf w) (yOf w)) (wordXYN_of_selects h)
    | true =>
      have hg : groupOf w = 0x5 := groupOf_of_selects_group (g := 0x5) h
      exact ⟨.seReg (xOf w) (yOf w), (decode_of_group_5 true hg).trans (if_pos (.inr rfl)), rfl⟩
  | ldImm => exact decodesInRow_of_encode (i := .ldImm (xOf w) (nnOf w)) (wordXNN_of_group (groupOf_of_selects_group h))
  | addImm => exact decodesInRow_of_encode (i := .addImm (xOf w) (nnOf w)) (wordXNN_of_group (groupOf_of_selects_group h))
  | ldReg => exact decodesInRow_of_encode (i := .ldReg (xOf w) (yOf w)) (wordXYN_of_selects h)
  | orReg => exact decodesInRow_of_encode (i := .orReg (xOf w) (yOf w)) (wordXYN_of_selects h)
  | andReg => exact decodesInRow_of_encode (i := .andReg (xOf w) (yOf w)) (wordXYN_of_selects h)
  | xorReg => exact decodesInRow_of_encode (i := .xorReg (xOf w) (yOf w)) (wordXYN_of_selects h)
  | addReg => exact decodesInRow_of_encode (i := .addReg (xOf w) (yOf w)) (wordXYN_of_selects h)
  | sub => exact decodesInRow_of_encode (i := .sub (xOf w) (yOf w)) (wordXYN_of_selects h)
  | shr => exact decodesInRow_of_encode (i := .shr (xOf w) (yOf w)) (wordXYN_of_selects h)
  | subn => exact decodesInRow_of_encode (i := .subn (xOf w) (yOf w)) (wordXYN_of_selects h)
  | shl => exact decodesInRow_of_encode (i := .shl (xOf w) (yOf w)) (wordXYN_of_selects h)
  | sneReg =>
    cases loose with
    | false => exact decodesInRow_of_encode (i := .sneReg (xOf w) (yOf w)) (wordXYN_of_selects h)
    | true =>
      have hg : groupOf w = 0x9 := groupOf_of_selects_group (g := 0x9) h
      exact ⟨.sneReg (xOf w) (yOf w), (decode_of_group_9 true hg).trans (if_pos (.inr rfl)), rfl⟩
  | ldI => exact decodesInRow_of_encode (i := .ldI (nnnOf w)) (wordNNN_of_group (groupOf_of_selects_group h))
  | jpV0 => exact decodesInRow_of_encode (i := .jpV0 (nnnOf w)) (wordNNN_of_group (groupOf_of_selects_group h))
  | rnd => exact decodesInRow_of_encode (i := .rnd (xOf w) (nnOf w)) (wordXNN_of_group (groupOf_of_selects_group h))
  | drw =>
    have hg : groupOf w = 0xD := groupOf_of_selects_group (g := 0xD) h
    exact decodesInRow_of_encode (i := .drw (xOf w) (yOf w) (nOf w)) (wordXYN_of_group_n hg rfl)
  | skp => exact decodesInRow_of_encode (i := .skp (xOf w)) (wordXNN_of_selects h)
  | sknp => exact decodesInRow_of_encode (i := .sknp (xOf w)) (wordXNN_of_selects h)
  | ldVxDt => exact decodesInRow_of_encode (i := .ldVxDt (xOf w)) (wordXNN_of_selects h)
  | ldVxK => exact decodesInRow_of_encode (i := .ldVxK (xOf w)) (wordXNN_of_selects h)
  | ldDtVx => exact decodesInRow_of_encode (i := .ldDtVx (xOf w)) (wordXNN_of_selects h)
  | ldStVx => exact decodesInRow_of_encode (i := .ldStVx (xOf w)) (wordXNN_of_selects h)
  | addIVx => exact decodesInRow_of_encode (i := .addIVx (xOf w)) (wordXNN_of_selects h)
  | ldFVx => exact decodesInRow_of_encode (i := .ldFVx (xOf w)) (wordXNN_of_selects h)
  | ldBVx => exact decodesInRow_of_encode (i := .ldBVx (xOf w)) (wordXNN_of_selects h)
  | ldMemVx => exact decodesInRow_of_encode (i := .ldMemVx (xOf w)) (wordXNN_of_selects h)
  | ldVxMem => exact decodesInRow_of_encode (i := .ldVxMem (xOf w)) (wordXNN_of_selects h)

/-! ### The opcode map as a list -/

/-- Every instruction's row is that of the map's sample of its constructor. -/
theorem row_mem_opcodeMap (loose : Bool) (i : Instr) : i.row loose ∈ opcodeMap loose := by
  cases i <;> simp only [opcodeMap, rowSamples, Instr.row, List.map_cons, List.mem_cons, true_or, or_true]

/-- Two rows of the map that agree where both masks look are one row. -/
theorem opcodeMap_agree (loose : Bool) : ∀ r ∈ opcodeMap loose, ∀ q ∈ opcodeMap loose,
    r.pattern &&& q.mask = q.pattern &&& r.mask → r = q := by
  cases loose <;> decide

/-- Two rows that select one word agree where both masks look. -/
theorem patterns_agree {w : Word} {r q : OpcodeRow} (hr : w &&& r.mask = r.pattern) (hq : w &&& q.mask = q.pattern) :
    r.pattern &&& q.mask = q.pattern &&& r.mask := by
  rw [← hr, ← hq, BitVec.and_assoc, BitVec.and_assoc, BitVec.and_comm r.mask]

end Sys2Proof

namespace Sys2Proof.Machine

/-- Settles O8: a selected word decodes in the row (`decodesInRow_of_selects`) and back (`selects_of_decode`); two rows that
select one word agree where both masks look, which in the map makes them one row. -/
theorem decodeAgreesWithOpcodeMap : Obligations.DecodeAgreesWithOpcodeMap := by
  refine fun loose => ⟨fun w r hr => ⟨fun h => ?_, fun ⟨i, hi, hrow⟩ => hrow ▸ selects_of_decode hi⟩,
    fun _ i _ => row_mem_opcodeMap loose i, rfl,
    fun w r q hr hq hwr hwq => opcodeMap_agree loose r hr q hq (patterns_agree hwr hwq)⟩
  obtain ⟨i, -, rfl⟩ := List.mem_map.1 hr
  exact decodesInRow_of_selects i h

end Sys2Proof.Machine

namespace Sys2Proof

/-! ### The unknown words (R96) -/

theorem groupOf_eq_div (w : Word) : groupOf w = w.toNat / 4096 := by
  have := w.isLt
  simp only [groupOf, BitVec.extractLsb'_toNat, Nat.shiftRight_eq_div_pow]
  omega

theorem nOf_val_eq_mod (w : Word) : (nOf w).val = w.toNat % 16 :=
  BitVec.extractLsb'_toNat 0 4 w

theorem nnOf_toNat_eq_mod (w : Word) : (nnOf w).toNat = w.toNat % 256 :=
  BitVec.extractLsb'_toNat 0 8 w

theorem decode_group_0_unknown {w : Word} (hg : groupOf w = 0x0) :
    decode false w = .unknown w ↔ w.toNat ≠ 0x00E0 ∧ w.toNat ≠ 0x00EE := by
  have hE0 : w = 0x00E0 ↔ w.toNat = 0x00E0 := BitVec.toNat_inj.symm
  have hEE : w = 0x00EE ↔ w.toNat = 0x00EE := BitVec.toNat_inj.symm
  rw [decode_of_group_0 false hg, ne_eq, ne_eq, ← hE0, ← hEE]
  split
  · next hw => simp [hw]
  · next hw => split <;> simp_all

theorem decodeGroup8_unknown (w : Word) :
    decodeGroup8 w = .unknown w ↔ (nOf w).val ∈ [0x8, 0x9, 0xA, 0xB, 0xC, 0xD, 0xF] := by
  have := (nOf w).isLt
  unfold decodeGroup8
  split
  case h_10 =>
    simp only [imp_false] at *
    simp only [List.mem_cons, List.not_mem_nil, true_iff, or_false]
    omega
  all_goals simp [*]

theorem decodeGroupE_unknown (w : Word) : decodeGroupE w = .unknown w ↔ (nnOf w).toNat ∉ [0x9E, 0xA1] := by
  unfold decodeGroupE
  split <;> simp_all

theorem decodeGroupF_unknown (w : Word) :
    decodeGroupF w = .unknown w ↔ (nnOf w).toNat ∉ [0x07, 0x0A, 0x15, 0x18, 0x1E, 0x29, 0x33, 0x55, 0x65] := by
  unfold decodeGroupF
  split <;> simp_all

theorem decode_group_5_unknown {w : Word} (hg : groupOf w = 0x5) : decode false w = .unknown w ↔ (nOf w).val ≠ 0 := by
  rw [decode_of_group_5 false hg]
  split <;> simp_all

theorem decode_group_9_unknown {w : Word} (hg : groupOf w = 0x9) : decode false w = .unknown w ↔ (nOf w).val ≠ 0 := by
  rw [decode_of_group_9 false hg]
  split <;> simp_all

end Sys2Proof

namespace Sys2Proof.Machine

/-- Settles O9: group by group, six groups with their own selector, and ten that decode every word. -/
theorem unknownWordsAreExactly : Obligations.UnknownWordsAreExactly := by
  intro w
  rw [← groupOf_eq_div, ← nOf_val_eq_mod, ← nnOf_toNat_eq_mod]
  have hlt := groupOf_lt w
  interval_cases hg : groupOf w
  · rw [decode_group_0_unknown hg]; simp
  · rw [decode_of_group_1 false hg]; simp
  · rw [decode_of_group_2 false hg]; simp
  · rw [decode_of_group_3 false hg]; simp
  · rw [decode_of_group_4 false hg]; simp
  · rw [decode_group_5_unknown hg]; simp
  · rw [decode_of_group_6 false hg]; simp
  · rw [decode_of_group_7 false hg]; simp
  · rw [decode_of_group_8 false hg, decodeGroup8_unknown]; simp
  · rw [decode_group_9_unknown hg]; simp
  · rw [decode_of_group_A false hg]; simp
  · rw [decode_of_group_B false hg]; simp
  · rw [decode_of_group_C false hg]; simp
  · rw [decode_of_group_D false hg]; simp
  · rw [decode_of_group_E false hg, decodeGroupE_unknown]; simp
  · rw [decode_of_group_F false hg, decodeGroupF_unknown]; simp

end Sys2Proof.Machine

/-! ### The bytes of the pseudo-instructions (R102) -/

namespace Sys2Proof

theorem highByte_append (hi lo : Byte) : highByte (hi ++ lo) = hi := by
  unfold highByte
  rw [extract_up _ _ (by omega)]
  exact extract_all hi

theorem lowByte_append (hi lo : Byte) : lowByte (hi ++ lo) = lo := by
  unfold lowByte
  rw [extract_low _ _ (by omega)]
  exact extract_all lo

/-- A word of two registers is its two bytes, x in the high one and y in the low one. -/
theorem wordXYN_eq_append (g : BitVec 4) (x y : Reg) (n : BitVec 4) :
    wordXYN g x y n = (g ++ regBits x : Byte) ++ (regBits y ++ n : Byte) :=
  BitVec.append_assoc

end Sys2Proof

namespace Sys2Proof.Machine

/-- The two bytes of a word that is written as two bytes. -/
theorem bytes_of_eq_append {w : Word} {hi lo : Byte} (h : w = hi ++ lo) : [highByte w, lowByte w] = [hi, lo] := by
  rw [h, highByte_append, lowByte_append]

/-- Settles O60: SHR Vx and SHL Vx are the two-register words with y = 0, and a word is put down as its two bytes. -/
theorem pseudoInstructionsPlaceBytes : Obligations.PseudoInstructionsPlaceBytes :=
  ⟨fun x => ⟨bytes_of_eq_append (wordXYN_eq_append 0x8 x 0 0x6), bytes_of_eq_append (wordXYN_eq_append 0x8 x 0 0xE)⟩,
    fun _ => rfl, fun _ _ => bytes_of_eq_append rfl, by decide⟩

end Sys2Proof.Machine
end

section
/-! SUPPORT. Proofs about control flow (41_control_flow.md R140 to R153): jumps, call and return, the register skips. -/

namespace Sys2Proof.Machine

/-! ### Jumps -/

theorem exec_jp (nnn : Addr12) (s : State) : exec (.jp nnn) s = .next (s.setPc (zext16 nnn)) := rfl

theorem exec_jpV0 (nnn : Addr12) (s : State) :
    exec (.jpV0 nnn) s = .next (s.setPc ((s.reg 0).setWidth 16 + zext16 nnn)) := rfl

/-- The target of JP V0 fits in a word: a byte and a 12-bit address add up to at most 0x10FE. -/
theorem jpV0_target_toNat (b : Byte) (nnn : Addr12) : (b.setWidth 16 + zext16 nnn).toNat = b.toNat + nnn.toNat := by
  have hb : (b.setWidth 16).toNat = b.toNat := BitVec.toNat_setWidth_of_le (by decide)
  have := nnn.isLt
  rw [BitVec.toNat_add, hb, zext16_toNat]
  omega

/-- Settles O11: one write of pc, and a target of 0xFFF is above the last address a fetch may have. -/
theorem jumpSetsProgramCounter : Obligations.JumpSetsProgramCounter := fun nnn s =>
  have hpc : (s.setPc (zext16 nnn)).pc.toNat = nnn.toNat := zext16_toNat nnn
  ⟨decodesTo_jp nnn, _, exec_jp nnn s, hpc, frame_setPc s _, fun h => step_of_bad_pc (by rw [hpc, h]; decide)⟩

/-- Settles O12: one write of pc, whose sum does not wrap. -/
theorem jumpWithOffsetAddsV0 : Obligations.JumpWithOffsetAddsV0 := fun nnn s =>
  have hpc : (s.setPc ((s.reg 0).setWidth 16 + zext16 nnn)).pc.toNat = (s.reg 0).toNat + nnn.toNat :=
    jpV0_target_toNat (s.reg 0) nnn
  ⟨decodesTo_jpV0 nnn, _, exec_jpV0 nnn s, hpc, frame_setPc s _, fun h => step_of_bad_pc (hpc ▸ h)⟩

/-! ### Call and return -/

/-- The state a push leaves (R145): slot j written, and SP. -/
def State.pushed (s : State) (j : Fin 16) (w : Word) (n : Fin 17) : State :=
  { s with stack := s.stack.set j.val w, sp := n }

/-- The state a pop leaves (R146): SP. -/
def State.withSp (s : State) (n : Fin 17) : State := { s with sp := n }

theorem State.pushed_slot_self (s : State) (j : Fin 16) (w : Word) (n : Fin 17) : (s.pushed j w n).slot j = w := by
  simp [State.slot, State.pushed]

theorem State.pushed_slot_ne (s : State) {j k : Fin 16} (w : Word) (n : Fin 17) (h : k ≠ j) :
    (s.pushed j w n).slot k = s.slot k := by
  have : j.val ≠ k.val := fun e => h (Fin.ext e.symm)
  simp [State.slot, State.pushed, Vector.getElem_set_ne, this]

theorem frame_pushed (s : State) (j : Fin 16) (w : Word) (n : Fin 17) : Frame [.sp, .slot j] s (s.pushed j w n) := by
  intro p hp
  cases p with
  | sp => simp at hp
  | slot k => exact State.pushed_slot_ne s w n (by simpa using hp)
  | _ => rfl

theorem frame_withSp (s : State) (n : Fin 17) : Frame [.sp] s (s.withSp n) := by
  intro p hp
  cases p with
  | sp => simp at hp
  | _ => rfl

theorem exec_call_pushed {s : State} (nnn : Addr12) (h : s.sp.val < 16) :
    exec (.call nnn) s =
      .next ((s.pushed ⟨s.sp.val, h⟩ s.pc ⟨s.sp.val + 1, by omega⟩).setPc (zext16 nnn)) :=
  exec_call_of_lt nnn h

theorem exec_ret_withSp {s : State} {j : Fin 16} (h : s.sp.val = j.val + 1) :
    exec .ret s = .next ((s.withSp ⟨j.val, by omega⟩).setPc (s.slot j)) :=
  exec_ret_of_pos h

/-- The slot a call wrote holds the pushed word. -/
theorem called_slot (s : State) (j : Fin 16) (w v : Word) (n : Fin 17) : ((s.pushed j w n).setPc v).slot j = w :=
  State.pushed_slot_self s j w n

/-- A call changes pc, SP and the slot SP named. -/
theorem frame_call (s : State) (j : Fin 16) (w v : Word) (n : Fin 17) :
    Frame [.pc, .sp, .slot j] s ((s.pushed j w n).setPc v) :=
  FrameBut.trans ((frame_pushed s j w n).mono fun p hp => by simp_all) ((frame_setPc _ v).mono fun p hp => by simp_all)

/-- A return changes pc and SP. -/
theorem frame_ret (s : State) (v : Word) (n : Fin 17) : Frame [.pc, .sp] s ((s.withSp n).setPc v) :=
  FrameBut.trans ((frame_withSp s n).mono fun p hp => by simp_all) ((frame_setPc _ v).mono fun p hp => by simp_all)

/-- Settles O13: the push writes slot SP, and with 16 slots full there is none. -/
theorem callPushesReturnAddress : Obligations.CallPushesReturnAddress := fun nnn s =>
  ⟨decodesTo_call nnn,
    fun h => ⟨_, exec_call_pushed nnn h, called_slot s _ _ _ _, rfl, zext16_toNat nnn,
      frame_call s _ _ _ _⟩,
    exec_call_of_full nnn⟩

/-- Settles O14: the pop answers the slot below SP, and with SP = 0 there is none. -/
theorem returnPopsReturnAddress : Obligations.ReturnPopsReturnAddress := fun s =>
  ⟨decodesTo_ret, fun _ hj => ⟨_, exec_ret_withSp hj, rfl, rfl, frame_ret s _ _⟩, exec_ret_of_zero⟩

/-- Settles O15: the slot the call wrote is the topmost occupied one, so it is the one the return reads. -/
theorem callThenReturnComesBack : Obligations.CallThenReturnComesBack := by
  intro nnn s hs
  refine ⟨_, exec_call_pushed nnn hs, fun u hsp hslots => ?_⟩
  have hu : u.sp.val = s.sp.val + 1 := congrArg Fin.val hsp
  have hslot : u.slot ⟨s.sp.val, hs⟩ = s.pc :=
    (hslots ⟨s.sp.val, hs⟩ (Nat.lt_succ_self _)).trans (called_slot s _ _ _ _)
  exact ⟨_, exec_ret_withSp (j := ⟨s.sp.val, hs⟩) hu, hslot, rfl, frame_ret u _ _⟩

/-! ### The register skips -/

theorem exec_seReg (x y : Reg) (s : State) : exec (.seReg x y) s = .next (s.skipIf (s.reg x == s.reg y)) := rfl

theorem exec_sneReg (x y : Reg) (s : State) : exec (.sneReg x y) s = .next (s.skipIf (s.reg x != s.reg y)) := rfl

theorem group_5_decodes_iff_loose (x y : Reg) {n : BitVec 4} (hn : n ≠ 0) (loose : Bool) :
    (∃ i, decode loose (wordXYN 0x5 x y n) = .instr i) ↔ loose = true := by
  constructor
  · rintro ⟨i, hi⟩
    cases loose with
    | false => rw [decode_strict_group_5 x y hn] at hi; cases hi
    | true => rfl
  · exact fun h => ⟨_, decode_seReg x y (.inr h)⟩

theorem group_9_decodes_iff_loose (x y : Reg) {n : BitVec 4} (hn : n ≠ 0) (loose : Bool) :
    (∃ i, decode loose (wordXYN 0x9 x y n) = .instr i) ↔ loose = true := by
  constructor
  · rintro ⟨i, hi⟩
    cases loose with
    | false => rw [decode_strict_group_9 x y hn] at hi; cases hi
    | true => rfl
  · exact fun h => ⟨_, decode_sneReg x y (.inr h)⟩

/-- Settles O17: the words are `wordXYN` of groups 5 and 9, and each instruction is `skipIf` on its comparison. -/
theorem skipOnRegisters : Obligations.SkipOnRegisters := fun x y s =>
  ⟨decodesTo_seReg x y, decodesTo_sneReg x y,
    fun _ hn loose => ⟨group_5_decodes_iff_loose x y hn loose, group_9_decodes_iff_loose x y hn loose⟩,
    ⟨_, exec_seReg x y s, skipIf_beq_pc s (s.reg x) (s.reg y), frame_skipIf s _⟩,
    ⟨_, exec_sneReg x y s, skipIf_bne_pc s (s.reg x) (s.reg y), frame_skipIf s _⟩⟩

end Sys2Proof.Machine
end

section
/-! SUPPORT. Proofs about the flag-writing ALU instructions, RND and ADD I, Vx (42_alu.md R177 to R185, 43_index_memory.md
R212). A flag instruction is one `setResultFlag`, whose VF is the flag and whose V[x] is the result unless x = 0xF. -/

namespace Sys2Proof.Machine

/-! ### The flags and results as numbers -/

theorem flagByte_carryOf_toNat (a b : Byte) :
    (flagByte (carryOf a b)).toNat = if a.toNat + b.toNat > 255 then 1 else 0 := by
  simp only [flagByte_toNat, carryOf, decide_eq_true_eq]

theorem flagByte_noBorrowOf_toNat (a b : Byte) :
    (flagByte (noBorrowOf a b)).toNat = if a.toNat ≥ b.toNat then 1 else 0 := by
  simp only [flagByte_toNat, noBorrowOf, decide_eq_true_eq]

theorem sub_toNat_eq (a b : Byte) : (a - b).toNat = (a.toNat + 256 - b.toNat) % 256 := by
  bv_omega

theorem shiftRight_one_toNat (a : Byte) : (a >>> 1).toNat = a.toNat / 2 := by
  rw [BitVec.toNat_ushiftRight, Nat.shiftRight_eq_div_pow]

theorem shiftLeft_one_toNat (a : Byte) : (a <<< 1).toNat = 2 * a.toNat % 256 := by
  rw [BitVec.toNat_shiftLeft, Nat.shiftLeft_eq, Nat.mul_comm]

/-- A flag that is bit k of a byte is that binary digit. -/
theorem flagByte_getLsbD_toNat (a : Byte) (k : Nat) : (flagByte (a.getLsbD k)).toNat = a.toNat / 2 ^ k % 2 := by
  rw [flagByte_toNat, BitVec.getLsbD, Nat.testBit_eq_decide_div_mod_eq]
  split <;> simp_all

theorem flagByte_shiftedOutRight_toNat (a : Byte) : (flagByte (shiftedOutRight a)).toNat = a.toNat % 2 :=
  (flagByte_getLsbD_toNat a 0).trans (by simp)

theorem flagByte_shiftedOutLeft_toNat (a : Byte) : (flagByte (shiftedOutLeft a)).toNat = a.toNat / 128 := by
  have := a.isLt
  rw [shiftedOutLeft, flagByte_getLsbD_toNat]
  omega

/-! ### One result and one flag -/

theorem exec_addReg (x y : Reg) (s : State) :
    exec (.addReg x y) s = .next (s.setResultFlag x (s.reg x + s.reg y) (carryOf (s.reg x) (s.reg y))) := rfl

theorem exec_sub (x y : Reg) (s : State) :
    exec (.sub x y) s = .next (s.setResultFlag x (s.reg x - s.reg y) (noBorrowOf (s.reg x) (s.reg y))) := rfl

theorem exec_subn (x y : Reg) (s : State) :
    exec (.subn x y) s = .next (s.setResultFlag x (s.reg y - s.reg x) (noBorrowOf (s.reg y) (s.reg x))) := rfl

theorem exec_shr (x y : Reg) (s : State) :
    exec (.shr x y) s = .next (s.setResultFlag x (s.reg x >>> 1) (shiftedOutRight (s.reg x))) := rfl

theorem exec_shl (x y : Reg) (s : State) :
    exec (.shl x y) s = .next (s.setResultFlag x (s.reg x <<< 1) (shiftedOutLeft (s.reg x))) := rfl

/-- A next state that is one `setResultFlag` has the frame, the result and the flag a statement asks of it. -/
theorem setResultFlag_spec {i : Instr} {s : State} {x : Reg} {r : Byte} {f : Bool} {rn fn : Nat}
    (h : exec i s = .next (s.setResultFlag x r f)) (hr : r.toNat = rn) (hf : (flagByte f).toNat = fn) :
    ∃ t, exec i s = .next t ∧ Frame [.reg x, .reg vf] s t ∧ (x ≠ vf → (t.reg x).toNat = rn) ∧ (t.reg vf).toNat = fn :=
  ⟨_, h, frame_setResultFlag s x r f, fun hx => by rw [setResultFlag_reg s hx, hr], by rw [setResultFlag_vf, hf]⟩

/-- Settles O22: the word is of group 8 with n = 4, and the step is one `setResultFlag` of the sum and its carry. -/
theorem addSetsCarry : Obligations.AddSetsCarry := fun x y s =>
  ⟨decodesTo_addReg x y,
    setResultFlag_spec (exec_addReg x y s) (BitVec.toNat_add _ _) (flagByte_carryOf_toNat _ _)⟩

/-- Settles O23: the words are of group 8 with n = 5 and 7, and each step is one `setResultFlag` of a difference and its
no-borrow. -/
theorem subtractSetsNoBorrow : Obligations.SubtractSetsNoBorrow := fun x y s =>
  ⟨decodesTo_sub x y, decodesTo_subn x y,
    setResultFlag_spec (exec_sub x y s) (sub_toNat_eq _ _) (flagByte_noBorrowOf_toNat _ _),
    setResultFlag_spec (exec_subn x y s) (sub_toNat_eq _ _) (flagByte_noBorrowOf_toNat _ _)⟩

/-- Settles O24: each step is one `setResultFlag` of a shift of V[x] and the bit it pushes out; neither mentions V[y]. -/
theorem shiftsMoveVxAlone : Obligations.ShiftsMoveVxAlone := fun x y s =>
  ⟨decodesTo_shr x y, decodesTo_shl x y,
    setResultFlag_spec (exec_shr x y s) (shiftRight_one_toNat _) (flagByte_shiftedOutRight_toNat _),
    setResultFlag_spec (exec_shl x y s) (shiftLeft_one_toNat _) (flagByte_shiftedOutLeft_toNat _)⟩

/-! ### RND and ADD I, Vx -/

theorem exec_rnd (x : Reg) (nn : Byte) (s : State) :
    exec (.rnd x nn) s = .next ((s.setReg x (Config.randomByte s.draws &&& nn)).nextDraw) := rfl

/-- One register write that consumes a free value changes the register and the count. -/
theorem frame_setReg_nextDraw (s : State) (x : Reg) (b : Byte) : Frame [.reg x, .draws] s (s.setReg x b).nextDraw :=
  FrameBut.trans ((frame_setReg s x b).mono fun p hp => by simp_all) ((frame_nextDraw _).mono fun p hp => by simp_all)

theorem setReg_nextDraw_reg (s : State) (x : Reg) (b : Byte) : (s.setReg x b).nextDraw.reg x = b :=
  State.setReg_reg_self s x b

/-- Settles O25: the byte written is the draw masked by nn. -/
theorem randomByteIsMasked : Obligations.RandomByteIsMasked := fun x nn s =>
  ⟨decodesTo_rnd x nn, _, exec_rnd x nn s, frame_setReg_nextDraw s x _, rfl,
    fun b => by rw [setReg_nextDraw_reg, BitVec.getLsbD_and],
    by rw [setReg_nextDraw_reg, BitVec.and_assoc, BitVec.and_not_self]; exact BitVec.and_zero⟩

theorem exec_addIVx (x : Reg) (s : State) : exec (.addIVx x) s = .next (s.setIdx (s.idx + (s.reg x).setWidth 16)) := rfl

/-- Settles O27: a byte keeps its value in 16 bits, where the sum wraps modulo 65536. -/
theorem addToIndexWraps : Obligations.AddToIndexWraps := fun x s =>
  ⟨decodesTo_addIVx x, _, exec_addIVx x s,
    by rw [State.setIdx_idx, BitVec.toNat_add, BitVec.toNat_setWidth_of_le (by decide)], frame_setIdx s _⟩

end Sys2Proof.Machine
end

section
/-! SUPPORT. Proofs about the keypad and the sound timer (45_keypad_timers.md R260 to R267, 10_state.md R46). -/

namespace Sys2Proof.Machine

/-! ### SKP and SKNP -/

theorem exec_skp_of_key {s : State} {x : Reg} {k : Key} (h : (s.reg x).toNat = k.val) :
    exec (.skp x) s = .next (s.skipIf (s.key k)) := by
  simp only [exec, execSkp, keyCheck_of_eq h]

theorem exec_sknp_of_key {s : State} {x : Reg} {k : Key} (h : (s.reg x).toNat = k.val) :
    exec (.sknp x) s = .next (s.skipIf (!s.key k)) := by
  simp only [exec, execSknp, keyCheck_of_eq h]

theorem exec_skp_of_gt {s : State} {x : Reg} (h : (s.reg x).toNat > 0xF) : exec (.skp x) s = .fault .keyOutOfRange := by
  simp only [exec, execSkp, keyCheck_of_gt h, raise]

theorem exec_sknp_of_gt {s : State} {x : Reg} (h : (s.reg x).toNat > 0xF) : exec (.sknp x) s = .fault .keyOutOfRange := by
  simp only [exec, execSknp, keyCheck_of_gt h, raise]

theorem skipIf_not_pc (s : State) (c : Bool) : (s.skipIf !c).pc = if c then s.pc else s.pc + 2 := by
  cases c <;> rfl

/-- Settles O36: the key check answers key V[x] or the fault, and each instruction is `skipIf` on the level of that key. -/
theorem keySkipsReadTheKey : Obligations.KeySkipsReadTheKey := fun x s =>
  ⟨decodesTo_skp x, decodesTo_sknp x,
    fun k h => ⟨⟨_, exec_skp_of_key h, State.skipIf_pc s (s.key k), frame_skipIf s _⟩,
      ⟨_, exec_sknp_of_key h, skipIf_not_pc s (s.key k), frame_skipIf s _⟩⟩,
    fun h => ⟨exec_skp_of_gt h, exec_sknp_of_gt h⟩⟩

/-! ### LD Vx, K -/

theorem exec_ldVxK_of_none {s : State} (x : Reg) (h : ∀ k, s.key k = false) : exec (.ldVxK x) s = .next s.rewind := by
  simp only [exec, execLdVxK, heldKeys_eq_nil.2 h]

/-- With some key held the wait ends: a held key's number goes to V[x] and a free value is consumed (R265). -/
theorem exec_ldVxK_of_some {s : State} (x : Reg) (h : ∃ k, s.key k = true) :
    ∃ k, s.key k = true ∧ exec (.ldVxK x) s = .next (s.setReg x (BitVec.ofNat 8 k.val)).nextDraw := by
  obtain ⟨q, hq⟩ := h
  cases hheld : s.heldKeys with
  | nil => rw [heldKeys_eq_nil.1 hheld q] at hq; cases hq
  | cons k ks =>
    refine ⟨chooseKey (Config.keyChoice s.draws) k ks, mem_heldKeys.1 (hheld ▸ chooseKey_mem _ k ks), ?_⟩
    simp only [exec, execLdVxK, hheld]

theorem keyByte_toNat (k : Key) : (BitVec.ofNat 8 k.val).toNat = k.val := by
  have := k.isLt
  rw [BitVec.toNat_ofNat]
  omega

/-- Settles O37: no held key is an empty list of held keys; otherwise the choice is a member of the list. -/
theorem waitForKeyStoresAHeldKey : Obligations.WaitForKeyStoresAHeldKey := by
  refine fun x s => ⟨decodesTo_ldVxK x, fun h => ⟨_, exec_ldVxK_of_none x h, rfl, frame_setPc s _⟩, fun h => ?_⟩
  obtain ⟨k, hk, hexec⟩ := exec_ldVxK_of_some x h
  exact ⟨_, hexec, ⟨k, hk, by rw [setReg_nextDraw_reg, keyByte_toNat]⟩, rfl, frame_setReg_nextDraw s x _⟩

/-! ### LD ST, Vx and the tone -/

theorem exec_ldStVx (x : Reg) (s : State) : exec (.ldStVx x) s = .next (s.setSt (s.reg x)) := rfl

theorem tone_iff (s : State) : tone s = true ↔ s.st.toNat ≠ 0 := by
  rw [tone, bne_iff_ne, ne_eq, ← BitVec.toNat_inj]
  rfl

/-- A sound timer at 1 is 0 after one tick, so that the tone is off. -/
theorem tone_tickTimers_of_one {s : State} (h : s.st = 1) : tone (tickTimers s) = false := by
  rw [tone, tickTimers_st, h]
  decide

/-- Settles O40: one write of ST, and the tone is a test of ST. -/
theorem soundTimerDrivesTone : Obligations.SoundTimerDrivesTone := fun x s =>
  ⟨decodesTo_ldStVx x, ⟨_, exec_ldStVx x s, rfl, tone_iff _, frame_setSt s _⟩,
    fun h => ⟨(tone_iff s).2 (by rw [h]; decide), tone_tickTimers_of_one h⟩⟩

end Sys2Proof.Machine
end

section
/-! SUPPORT. Proofs about the stores and loads at I (43_index_memory.md R218 to R224, 20_memory.md R69 to R71): one block
store `storeAtIdx` or one `loadRegs`. -/

namespace Sys2Proof.Machine

/-! ### Reading what a block store wrote -/

theorem readByte_writeBytes_add (s : State) (a : Nat) {k : Nat} {bs : List Byte} (h : k < bs.length) :
    (s.writeBytes a bs).readByte (a + k) = bs[k] := by
  rw [State.readByte_writeBytes_of_mem s (Nat.le_add_right a k) (Nat.add_lt_add_left h a)]
  congr 1
  omega

theorem length_storedRegs (s : State) (x : Reg) : ((regsUpTo x).map s.reg).length = x.val + 1 := by
  rw [List.length_map, length_regsUpTo]

/-- The block store of V0..Vx puts V[r] at its r-th address (R221). -/
theorem readByte_storedRegs (s : State) (a : Nat) {x r : Reg} (h : r ≤ x) :
    (s.writeBytes a ((regsUpTo x).map s.reg)).readByte (a + r.val) = s.reg r := by
  have hlen : r.val < ((regsUpTo x).map s.reg).length := by
    rw [length_storedRegs]
    exact Nat.lt_succ_of_le h
  rw [readByte_writeBytes_add s a hlen, List.getElem_map, regsUpTo_getElem]

/-! ### LD B, Vx -/

theorem exec_ldBVx (x : Reg) (s : State) : exec (.ldBVx x) s = s.storeAtIdx (decimalDigits (s.reg x)) := rfl

/-- The addresses a decimal store writes are the three from a on (R218). -/
theorem frame_storedDigits (s : State) (a : Nat) (b : Byte) :
    Frame [.byte a, .byte (a + 1), .byte (a + 2)] s (s.writeBytes a (decimalDigits b)) :=
  (frame_writeBytes s a _).mono fun p ⟨k, hk, hp⟩ => by
    rw [length_decimalDigits] at hk
    interval_cases k <;> simp [hp]

theorem hundreds_toNat (s : State) (a : Nat) (b : Byte) :
    ((s.writeBytes a (decimalDigits b)).readByte a).toNat = b.toNat / 100 := by
  have hb := b.isLt
  have hread := readByte_writeBytes_add s a (k := 0) (bs := decimalDigits b) (by simp)
  rw [Nat.add_zero] at hread
  rw [hread]
  exact (BitVec.toNat_ofNat _ 8).trans (Nat.mod_eq_of_lt (by omega))

theorem tens_toNat (s : State) (a : Nat) (b : Byte) :
    ((s.writeBytes a (decimalDigits b)).readByte (a + 1)).toNat = b.toNat / 10 % 10 := by
  rw [readByte_writeBytes_add s a (by simp)]
  exact (BitVec.toNat_ofNat _ 8).trans (Nat.mod_eq_of_lt (by omega))

theorem ones_toNat (s : State) (a : Nat) (b : Byte) :
    ((s.writeBytes a (decimalDigits b)).readByte (a + 2)).toNat = b.toNat % 10 := by
  rw [readByte_writeBytes_add s a (by simp)]
  exact (BitVec.toNat_ofNat _ 8).trans (Nat.mod_eq_of_lt (by omega))

/-- Settles O29: a block store of the three digits, whose checks give the two faults. -/
theorem storeDecimalDigits : Obligations.StoreDecimalDigits := fun x s =>
  ⟨decodesTo_ldBVx x,
    fun hfont hend => ⟨_, storeAtIdx_next (by rw [length_decimalDigits]; omega) hfont, hundreds_toNat s _ _,
      tens_toNat s _ _, ones_toNat s _ _, frame_storedDigits s _ _⟩,
    fun hend => storeAtIdx_outOfRange (by simp) (by rw [length_decimalDigits]; omega),
    fun hfont => storeAtIdx_font (by simp) (by rw [length_decimalDigits]; omega) (by omega)⟩

/-! ### LD [I], Vx and LD Vx, [I] -/

theorem exec_ldMemVx (x : Reg) (s : State) : exec (.ldMemVx x) s = s.storeAtIdx ((regsUpTo x).map s.reg) := rfl

theorem frame_storedRegs (s : State) (a : Nat) (x : Reg) :
    FrameBut (fun p => ∃ r : Reg, r ≤ x ∧ p = .byte (a + r.val)) s (s.writeBytes a ((regsUpTo x).map s.reg)) :=
  (frame_writeBytes s a _).mono fun p ⟨k, hk, hp⟩ => by
    rw [length_storedRegs] at hk
    exact ⟨⟨k, by omega⟩, Nat.le_of_lt_succ hk, hp⟩

/-- Settles O30: a block store of V0..Vx, whose checks give the two faults. -/
theorem storeRegistersAtI : Obligations.StoreRegistersAtI := fun x s =>
  ⟨decodesTo_ldMemVx x,
    fun hfont hend => ⟨_, storeAtIdx_next (by rw [length_storedRegs]; omega) hfont,
      fun _ hr => readByte_storedRegs s _ hr, frame_storedRegs s _ x⟩,
    fun hend => storeAtIdx_outOfRange (by simp) (by rw [length_storedRegs]; omega),
    fun hfont => storeAtIdx_font (by simp) (by rw [length_storedRegs]; omega) (by omega)⟩

theorem exec_ldVxMem_of_le {s : State} {x : Reg} (h : s.idx.toNat + x.val ≤ 0xFFF) :
    exec (.ldVxMem x) s = .next (s.loadRegs (regsUpTo x)) := by
  have hin : allInMemory (s.dataAddrs (x.val + 1)) = true := (allInMemory_dataAddrs s _).2 (.inr (by omega))
  rw [exec, execLdVxMem, if_pos hin]

theorem exec_ldVxMem_of_gt {s : State} {x : Reg} (h : s.idx.toNat + x.val > 0xFFF) :
    exec (.ldVxMem x) s = .fault .memoryOutOfRange := by
  have hout : ¬ allInMemory (s.dataAddrs (x.val + 1)) = true := fun e => by
    have := (allInMemory_dataAddrs s _).1 e
    omega
  rw [exec, execLdVxMem, if_neg hout, raise]

theorem loadRegs_reg_of_le (s : State) {x r : Reg} (h : r ≤ x) :
    (s.loadRegs (regsUpTo x)).reg r = s.readByte (s.idx.toNat + r.val) := by
  rw [loadRegs_reg, if_pos h]

/-- Settles O31: one `loadRegs` behind the range check. -/
theorem loadRegistersFromI : Obligations.LoadRegistersFromI := fun x s =>
  ⟨decodesTo_ldVxMem x,
    fun h => ⟨_, exec_ldVxMem_of_le h, fun _ hr => loadRegs_reg_of_le s hr, loadRegs_frame s x⟩,
    exec_ldVxMem_of_gt⟩

/-- Settles O32: a completed store was inside memory, so the load from the same I completes, and it reads the bytes the store
put there. -/
theorem storeThenLoadRestores : Obligations.StoreThenLoadRestores := by
  intro x s t u hstore hidx hbytes
  obtain ⟨hend, -, rfl⟩ := storeAtIdx_cases (by simp) (exec_ldMemVx x s ▸ hstore)
  rw [length_storedRegs] at hend
  refine ⟨_, exec_ldVxMem_of_le (by rw [hidx]; omega), fun r hr => ?_⟩
  rw [loadRegs_reg_of_le u hr, hidx, hbytes r hr, readByte_storedRegs s _ hr]

/-! ### Memory reads and the next fetch -/

/-- Settles O48: the read after one write, and the canonical form a write inside memory keeps. -/
theorem readAfterWriteIsLastWrite : Obligations.ReadAfterWriteIsLastWrite := fun s a z b =>
  ⟨(State.readByte_writeByte s a a b).trans (if_pos rfl), fun h => (State.readByte_writeByte s a z b).trans (if_neg h),
    fun ha hm => Memory.wf_write s.params hm ha b⟩

/-- A fetch inside memory answers the word of the two bytes at pc (R62). -/
theorem fetch_ok {t : State} (h : t.pc.toNat ≤ 0xFFE) :
    ∃ w, t.fetch = .ok w ∧
      w.toNat = (t.readByte t.pc.toNat).toNat * 256 + (t.readByte (t.pc.toNat + 1)).toNat :=
  ⟨_, fetch_of_le h, fetch16_toNat t t.pc.toNat⟩

/-- A store of V0..Vx through pc: the pair of registers at pc is the word fetched next. -/
theorem fetch_storedRegs {x r q : Reg} {s t : State} (h : exec (.ldMemVx x) s = .next t) (hq : q ≤ x)
    (hrq : q.val = r.val + 1) (hpc : s.pc.toNat = s.idx.toNat + r.val) : t.fetch = .ok (s.reg r ++ s.reg q) := by
  obtain ⟨hend, -, rfl⟩ := storeAtIdx_cases (by simp) (exec_ldMemVx x s ▸ h)
  have hqx : q.val ≤ x.val := hq
  have hr : r ≤ x := Fin.le_def.2 (by omega)
  rw [length_storedRegs] at hend
  rw [fetch_of_le (by rw [State.writeBytes_pc]; omega), State.writeBytes_pc, State.fetch16, hpc, Nat.add_assoc, ← hrq,
    readByte_storedRegs s _ hr, readByte_storedRegs s _ hq]
  rfl

/-- A decimal store with pc at its hundreds or tens: the digit at pc and the one behind it are the word fetched next. -/
theorem fetch_storedDigits {x : Reg} {s t : State} (h : exec (.ldBVx x) s = .next t) {k : Nat} (hk : k ≤ 1)
    (hpc : s.pc.toNat = s.idx.toNat + k) :
    t = s.writeBytes s.idx.toNat (decimalDigits (s.reg x)) ∧ ∃ w, t.fetch = .ok w ∧
      w.toNat = (t.readByte (s.idx.toNat + k)).toNat * 256 + (t.readByte (s.idx.toNat + k + 1)).toNat := by
  obtain ⟨hend, -, rfl⟩ := storeAtIdx_cases (by simp) (exec_ldBVx x s ▸ h)
  rw [length_decimalDigits] at hend
  have hword := fetch_ok (t := s.writeBytes s.idx.toNat (decimalDigits (s.reg x))) (by rw [State.writeBytes_pc]; omega)
  rw [State.writeBytes_pc, hpc] at hword
  exact ⟨rfl, hword⟩

theorem fetch_storedHundreds {x : Reg} {s t : State} (h : exec (.ldBVx x) s = .next t) (hpc : s.pc.toNat = s.idx.toNat) :
    ∃ w, t.fetch = .ok w ∧ w.toNat = (s.reg x).toNat / 100 * 256 + (s.reg x).toNat / 10 % 10 := by
  obtain ⟨rfl, hword⟩ := fetch_storedDigits h (k := 0) (by omega) hpc
  rwa [Nat.add_zero, hundreds_toNat, tens_toNat] at hword

theorem fetch_storedTens {x : Reg} {s t : State} (h : exec (.ldBVx x) s = .next t)
    (hpc : s.pc.toNat = s.idx.toNat + 1) :
    ∃ w, t.fetch = .ok w ∧ w.toNat = (s.reg x).toNat / 10 % 10 * 256 + (s.reg x).toNat % 10 := by
  obtain ⟨rfl, hword⟩ := fetch_storedDigits h (k := 1) (by omega) hpc
  rwa [tens_toNat, Nat.add_assoc, ones_toNat] at hword

/-- A block store leaves pc alone. -/
theorem store_keeps_pc {x : Reg} {s t : State} (h : exec (.ldMemVx x) s = .next t ∨ exec (.ldBVx x) s = .next t) :
    t.pc = s.pc := by
  rcases h with h | h
  · obtain ⟨-, -, rfl⟩ := storeAtIdx_cases (by simp) (exec_ldMemVx x s ▸ h)
    rfl
  · obtain ⟨-, -, rfl⟩ := storeAtIdx_cases (by simp) (exec_ldBVx x s ▸ h)
    rfl

/-- Settles O49: the fetch reads memory as the store left it. -/
theorem storedWordIsFetchedNext : Obligations.StoredWordIsFetchedNext := by
  refine ⟨fun _ _ _ _ _ => fetch_storedRegs, fun _ _ _ h => ⟨fetch_storedHundreds h, fetch_storedTens h⟩,
    fun x s t h hpc => ?_⟩
  rw [← store_keeps_pc h] at hpc ⊢
  exact fetch_ok hpc

end Sys2Proof.Machine
end

section
/-! SUPPORT. Proofs about DRW (44_display.md R241 to R247): the drawing subroutine on the state's own sprite and origin. -/

namespace Sys2Proof.Machine

/-- What DRW draws: the sprite of n rows at I over the display, from the origin in V[x] and V[y] (R241). -/
def drawOf (s : State) (x y : Reg) (n : Fin 16) : Display × Bool :=
  drawSprite ((s.reg y).toNat % 32) ((s.reg x).toNat % 64) ((s.dataAddrs n.val).map s.readByte) s.disp

theorem length_spriteRows (s : State) (n : Fin 16) : ((s.dataAddrs n.val).map s.readByte).length ≤ 32 := by
  have := n.isLt
  rw [List.length_map, length_dataAddrs]
  omega

theorem drawOf_get (s : State) (x y : Reg) (n : Fin 16) (r : Fin 32) (c : Fin 64) :
    (drawOf s x y n).1.get r c = true ↔ ¬ (s.pixel r c = true ↔ SpriteCovers s x y n.val r c) := by
  rw [drawOf, drawSprite_get (length_spriteRows s n), rowsCover_iff_spriteCovers, State.pixel_eq]

theorem drawOf_hit (s : State) (x y : Reg) (n : Fin 16) :
    (drawOf s x y n).2 = true ↔ ∃ r c, s.pixel r c = true ∧ SpriteCovers s x y n.val r c := by
  simp only [drawOf, drawSprite_hit (length_spriteRows s n), rowsCover_iff_spriteCovers, State.pixel_eq]

/-- The state DRW leaves: the display drawn, then VF (R244, R247). -/
def State.drawn (s : State) (x y : Reg) (n : Fin 16) : State :=
  (s.setDisp (drawOf s x y n).1).setReg vf (flagByte (drawOf s x y n).2)

theorem drawn_pixel (s : State) (x y : Reg) (n : Fin 16) (r : Fin 32) (c : Fin 64) :
    (s.drawn x y n).pixel r c = true ↔ ¬ (s.pixel r c = true ↔ SpriteCovers s x y n.val r c) :=
  drawOf_get s x y n r c

theorem drawn_vf (s : State) (x y : Reg) (n : Fin 16) : (s.drawn x y n).reg vf = flagByte (drawOf s x y n).2 :=
  State.setReg_reg_self _ vf _

theorem flagByte_eq_one {b : Bool} : flagByte b = 1 ↔ b = true := by cases b <;> decide

theorem flagByte_eq_zero {b : Bool} : flagByte b = 0 ↔ ¬ b = true := by cases b <;> decide

theorem drawn_vf_eq_one (s : State) (x y : Reg) (n : Fin 16) :
    (s.drawn x y n).reg vf = 1 ↔ ∃ r c, s.pixel r c = true ∧ SpriteCovers s x y n.val r c := by
  rw [drawn_vf, flagByte_eq_one, drawOf_hit]

theorem drawn_vf_eq_zero (s : State) (x y : Reg) (n : Fin 16) :
    (s.drawn x y n).reg vf = 0 ↔ ¬ ∃ r c, s.pixel r c = true ∧ SpriteCovers s x y n.val r c := by
  rw [drawn_vf, flagByte_eq_zero, drawOf_hit]

theorem frame_drawn (s : State) (x y : Reg) (n : Fin 16) :
    FrameBut (fun p => p = .reg vf ∨ ∃ r c, p = .pixel r c) s (s.drawn x y n) :=
  FrameBut.trans ((frame_setDisp s _).mono fun _ => .inr)
    ((frame_setReg _ vf _).mono fun _ hp => .inl (List.mem_singleton.1 hp))

/-- The rows DRW reads are inside memory: height 0 reads none (R241). -/
def SpriteInMemory (s : State) (n : Fin 16) : Prop := n.val = 0 ∨ s.idx.toNat + n.val - 1 ≤ 0xFFF

theorem allInMemory_sprite (s : State) (n : Fin 16) : allInMemory (s.dataAddrs n.val) = true ↔ SpriteInMemory s n := by
  rw [allInMemory_dataAddrs, SpriteInMemory]
  omega

theorem exec_drw_of_inMemory {s : State} (x y : Reg) {n : Fin 16} (h : SpriteInMemory s n) :
    exec (.drw x y n) s = .next (s.drawn x y n) := by
  rw [exec, execDrw, if_pos ((allInMemory_sprite s n).2 h)]
  rfl

theorem exec_drw_of_not_inMemory {s : State} (x y : Reg) {n : Fin 16} (h : ¬ SpriteInMemory s n) :
    exec (.drw x y n) s = .fault .memoryOutOfRange := by
  rw [exec, execDrw, if_neg (mt (allInMemory_sprite s n).1 h), raise]

theorem exec_drw_cases {s t : State} {x y : Reg} {n : Fin 16} (h : exec (.drw x y n) s = .next t) :
    SpriteInMemory s n ∧ t = s.drawn x y n := by
  by_cases hin : SpriteInMemory s n
  · rw [exec_drw_of_inMemory x y hin] at h
    exact ⟨hin, (Host.Outcome.next.inj h).symm⟩
  · rw [exec_drw_of_not_inMemory x y hin] at h
    cases h

/-- Settles O34: the drawing subroutine's formula on the state's own sprite, behind the range check of its rows. -/
theorem drawTogglesCoveredPixels : Obligations.DrawTogglesCoveredPixels := fun x y n s =>
  ⟨decodesTo_drw x y n,
    fun h => ⟨_, exec_drw_of_inMemory x y h, drawn_pixel s x y n, (drawn_vf_eq_one s x y n).2,
      (drawn_vf_eq_zero s x y n).2, frame_drawn s x y n⟩,
    fun hn hout => exec_drw_of_not_inMemory x y fun hin => by unfold SpriteInMemory at hin; omega⟩

/-! ### Drawing twice -/

/-- A sprite is determined by its origin registers, I and memory. -/
theorem spriteCovers_congr {s t : State} {x y : Reg} (hx : t.reg x = s.reg x) (hy : t.reg y = s.reg y)
    (hidx : t.idx = s.idx) (hmem : ∀ a, t.readByte a = s.readByte a) (n : Nat) (r : Fin 32) (c : Fin 64) :
    SpriteCovers t x y n r c ↔ SpriteCovers s x y n r c := by
  simp only [SpriteCovers, hx, hy, hidx, hmem]

/-- A draw that leaves its origin registers alone leaves its own sprite alone. -/
theorem spriteCovers_drawn {s : State} {x y : Reg} {n : Fin 16} (hx : (s.drawn x y n).reg x = s.reg x)
    (hy : (s.drawn x y n).reg y = s.reg y) (r : Fin 32) (c : Fin 64) :
    SpriteCovers (s.drawn x y n) x y n.val r c ↔ SpriteCovers s x y n.val r c :=
  spriteCovers_congr hx hy rfl (fun _ => rfl) n.val r c

/-- Settles O35: toggling twice restores, and a covered pixel is on after the first draw exactly when it was off before. -/
theorem drawTwiceRestoresDisplay : Obligations.DrawTwiceRestoresDisplay := by
  intro x y n s t h hx hy
  obtain ⟨hin, rfl⟩ := exec_drw_cases h
  have hsame := spriteCovers_drawn hx hy
  refine ⟨_, exec_drw_of_inMemory (s := s.drawn x y n) x y hin, fun r c => ?_, ?_⟩
  · rw [Bool.eq_iff_iff, drawn_pixel, drawn_pixel, hsame]
    tauto
  · rw [drawn_vf_eq_one]
    refine exists_congr fun r => exists_congr fun c => ?_
    rw [drawn_pixel, hsame, ← Bool.not_eq_true]
    tauto

end Sys2Proof.Machine
end

section
/-! SUPPORT. Proofs about the step port and runs of steps (40_cycle.md R120 to R126, 60_exceptions.md R302,
70_reset_and_hazards.md R341). -/

namespace Sys2Proof.Machine

/-- Settles O1: the step's own word, and the advance of a fetchable pc does not wrap. -/
theorem stepRunsDecodedInstruction : Obligations.StepRunsDecodedInstruction := by
  intro s w i hpc hw hi
  obtain rfl : w = s.fetch16 s.pc.toNat := eq_fetch16_of_toNat hw
  exact ⟨step_of_instr hpc hi, advance_pc_toNat hpc⟩

/-! ### The state and the result the port answers -/

theorem transact_step_of_fault {s : State} {k : Fault} (h : step s = .fault k) :
    transact s .step = (s, .stepped (stepResult s)) := by
  simp only [transact, stepState, h]

theorem transact_step_of_next {s t : State} (h : step s = .next t) :
    transact s .step = (t, .stepped (stepResult s)) := by
  simp only [transact, stepState, h]

/-- Settles O3: the fetch check is the first thing a step does, and on a fault the port leaves the state it found. -/
theorem fetchOutsideMemoryFaults : Obligations.FetchOutsideMemoryFaults := fun _ h =>
  ⟨step_of_bad_pc h, stepResult_of_bad_pc h ▸ transact_step_of_fault (step_of_bad_pc h)⟩

/-- The result of a step is the outcome of the step, said in R301's words. -/
theorem stepResult_cases (s : State) :
    (∃ k, step s = .fault k ∧ stepResult s = .fault k) ∨ (∃ r, step s = .refused r ∧ stepResult s = .refused r) ∨
    ∃ t, step s = .next t ∧ (stepResult s = .ok ∨ ∃ w, stepResult s = .unknown w) := by
  rcases step_cases s with ⟨hpc, hs⟩ | ⟨hpc, hu, hs⟩ | ⟨hpc, i, hi, hs⟩
  · exact .inl ⟨_, hs, stepResult_of_bad_pc hpc⟩
  · exact .inr (.inr ⟨_, hs, .inr ⟨_, stepResult_of_unknown hpc hu⟩⟩)
  · have hr := stepResult_of_instr hpc hi
    cases he : exec i s.advance with
    | next t => exact .inr (.inr ⟨t, hs.trans he, .inl (by rw [hr, he])⟩)
    | fault k => exact .inl ⟨k, hs.trans he, by rw [hr, he]⟩
    | refused r => exact .inr (.inl ⟨r, hs.trans he, by rw [hr, he]⟩)

theorem step_fault_iff_stepResult (s : State) (k : Fault) : step s = .fault k ↔ stepResult s = .fault k := by
  rcases stepResult_cases s with ⟨j, hs, hr⟩ | ⟨r, hs, hr⟩ | ⟨t, hs, hr | ⟨w, hr⟩⟩ <;> simp [hs, hr]

theorem stepResult_of_next {s t : State} (h : step s = .next t) :
    stepResult s = .ok ∨ ∃ w, stepResult s = .unknown w := by
  rcases stepResult_cases s with ⟨k, hs, -⟩ | ⟨r, hs, -⟩ | ⟨u, -, hr⟩
  · rw [hs] at h; cases h
  · rw [hs] at h; cases h
  · exact hr

/-- An instruction's step never answers Unknown. -/
theorem stepResult_ne_unknown {s : State} {i : Instr} (hpc : s.pc.toNat ≤ 0xFFE)
    (h : decode s.params.looseSkipDecode (s.fetch16 s.pc.toNat) = .instr i) (w : Word) : stepResult s ≠ .unknown w := by
  rw [stepResult_of_instr hpc h]
  cases exec i s.advance <;> exact fun e => nomatch e

theorem stepResult_unknown_iff (s : State) (w : Word) :
    stepResult s = .unknown w ↔
      s.pc.toNat ≤ 0xFFE ∧ w = s.fetch16 s.pc.toNat ∧ ∀ i, decode s.params.looseSkipDecode w ≠ .instr i := by
  constructor
  · intro h
    rcases step_cases s with ⟨hpc, -⟩ | ⟨hpc, hu, -⟩ | ⟨hpc, i, hi, -⟩
    · rw [stepResult_of_bad_pc hpc] at h; cases h
    · rw [stepResult_of_unknown hpc hu] at h; cases h
      exact ⟨hpc, rfl, fun i hi => by rw [hu] at hi; cases hi⟩
    · exact absurd h (stepResult_ne_unknown hpc hi w)
  · rintro ⟨hpc, rfl, hnone⟩
    exact stepResult_of_unknown hpc ((decode_cases _ _).resolve_left fun ⟨i, hi⟩ => hnone i hi)

/-- Settles O4: the port's result follows the step's outcome case by case, and Unknown is left to words that decode to no
instruction. -/
theorem stepPortReportsAndRollsBack : Obligations.StepPortReportsAndRollsBack := fun s =>
  ⟨step_fault_iff_stepResult s,
    fun k h => (step_fault_iff_stepResult s k).1 h ▸ transact_step_of_fault h,
    fun _ h => ⟨transact_step_of_next h, stepResult_of_next h⟩,
    stepResult_unknown_iff s⟩

/-! ### Steps from reset without a load (R341) -/

/-- The state after reset with pc at 0x200 + 2k, where k steps over the empty memory lead. -/
def climbed (p : Params) (k : Nat) : State := (State.resetWith p).setPc (BitVec.ofNat 16 (0x200 + 2 * k))

theorem climbed_pc (p : Params) {k : Nat} (h : k ≤ 1792) : (climbed p k).pc.toNat = 0x200 + 2 * k :=
  (BitVec.toNat_ofNat _ 16).trans (Nat.mod_eq_of_lt (by omega))

theorem climbed_readByte (p : Params) (k : Nat) {a : Nat} (h : 80 ≤ a) : (climbed p k).readByte a = 0 :=
  dif_neg (Nat.not_lt.2 h)

/-- Above the font an empty memory holds 0x0000 at every address. -/
theorem climbed_fetch16 (p : Params) {k : Nat} (h : k ≤ 1792) : (climbed p k).fetch16 (climbed p k).pc.toNat = 0x0000 := by
  have hlow : 80 ≤ 0x200 + 2 * k := by omega
  rw [climbed_pc p h, State.fetch16, climbed_readByte p k hlow, climbed_readByte p k (by omega)]
  rfl

/-- 0x0000 is no instruction: group 0 matches the whole word (D14). -/
theorem decode_zero (loose : Bool) : decode loose 0x0000 = .unknown 0x0000 := by
  cases loose <;> decide

theorem climbed_decode (p : Params) {k : Nat} (h : k ≤ 1792) :
    decode (climbed p k).params.looseSkipDecode ((climbed p k).fetch16 (climbed p k).pc.toNat) = .unknown 0x0000 := by
  rw [climbed_fetch16 p h, decode_zero]

theorem step_climbed (p : Params) {k : Nat} (h : k < 1792) : step (climbed p k) = .next (climbed p (k + 1)) := by
  have hpc := climbed_pc p (Nat.le_of_lt h)
  have hnext : (climbed p k).pc + 2 = BitVec.ofNat 16 (0x200 + 2 * (k + 1)) := by
    apply BitVec.eq_of_toNat_eq
    rw [advance_pc_toNat (by omega), hpc, BitVec.toNat_ofNat]
    omega
  rw [step_of_unknown (by omega) (climbed_decode p (Nat.le_of_lt h)), State.advance, hnext]
  rfl

theorem run_climbed (p : Params) (k : Nat) {j m : Nat} (h : j + k ≤ 1792) :
    Host.Core.run Sys2Proof.core (k + m) (climbed p j) = Host.Core.run Sys2Proof.core m (climbed p (j + k)) := by
  induction k generalizing j with
  | zero => rw [Nat.zero_add, Nat.add_zero]
  | succ k ih =>
    rw [Nat.add_right_comm, run_succ_next (k + m) (step_climbed p (by omega)), ih (by omega), Nat.add_right_comm,
      Nat.add_assoc]

/-- k steps from reset lead to pc = 0x200 + 2k. -/
theorem run_reset_climbs (p : Params) {k : Nat} (m : Nat) (h : k ≤ 1792) :
    Host.Core.run Sys2Proof.core (k + m) (State.resetWith p) = Host.Core.run Sys2Proof.core m (climbed p k) := by
  have hrun := run_climbed p k (j := 0) (m := m) (by omega)
  rwa [Nat.zero_add] at hrun

/-- Settles O47: every step climbs by one word to pc = 0x1000, where the fetch faults. -/
theorem stepsWithoutLoadClimbToTheEnd : Obligations.StepsWithoutLoadClimbToTheEnd := by
  refine fun p => ⟨fun k hk => ⟨climbed p k, (run_reset_climbs p 0 hk).trans (run_zero _), climbed_pc p hk,
    frame_setPc _ _, fun hlt => stepResult_of_unknown ?_ (climbed_decode p hk)⟩, ?_⟩
  · rw [climbed_pc p hk]; omega
  · have hend : step (climbed p 1792) = .fault .fetchOutOfRange := step_of_bad_pc (by rw [climbed_pc p le_rfl]; decide)
    exact (run_reset_climbs p 1 le_rfl).trans (run_succ_fault 0 hend)

end Sys2Proof.Machine
end

section
/-! SUPPORT. Proofs about the other ports and about runs of transactions (10_state.md R45 to R48, 40_cycle.md R132, R133,
60_exceptions.md R303, R318, 70_reset_and_hazards.md R330). -/

namespace Sys2Proof.Machine

/-! ### load -/

theorem load_of_le {rom : List Byte} (s : State) (h : rom.length ≤ 3584) :
    load rom s = some (s.writeBytes loadAddress rom) :=
  if_pos (decide_eq_true h)

theorem load_of_gt {rom : List Byte} (s : State) (h : rom.length > 3584) : load rom s = none :=
  if_neg (by rw [romFits, decide_eq_true_eq]; exact Nat.not_le.2 h)

/-- A load that succeeds copied a ROM that fits (R132). -/
theorem load_some {rom : List Byte} {s t : State} (h : load rom s = some t) :
    rom.length ≤ 3584 ∧ t = s.writeBytes loadAddress rom := by
  rcases Nat.lt_or_ge 3584 rom.length with hlen | hlen
  · rw [load_of_gt s hlen] at h; cases h
  · rw [load_of_le s hlen] at h; cases h; exact ⟨hlen, rfl⟩

/-- Settles O42: the block write's own reads and frame. -/
theorem loadCopiesRom : Obligations.LoadCopiesRom := fun rom s =>
  ⟨fun h => ⟨s.writeBytes loadAddress rom, by rw [transact, load_of_le s h]; rfl,
    fun _ hk => readByte_writeBytes_add s loadAddress hk, frame_writeBytes s loadAddress rom⟩,
    fun h => by rw [transact, load_of_gt s h]; rfl⟩

/-! ### reset -/

theorem readByte_reset_font (s : State) {a : Nat} (h : a < 80) : (resetPort s).readByte a = s.params.font[a] := dif_pos h

theorem readByte_reset_zero (s : State) {a : Nat} (h : 80 ≤ a) : (resetPort s).readByte a = 0 := dif_neg (Nat.not_lt.2 h)

theorem resetWith_slot (p : Params) (j : Fin 16) : (State.resetWith p).slot j = 0 := Vector.getElem_replicate _

theorem resetWith_pixel (p : Params) (r : Fin 32) (c : Fin 64) : (State.resetWith p).pixel r c = false :=
  Display.get_clear r c

/-- Settles O43: each element of `State.resetWith`. -/
theorem resetEstablishesInitialState : Obligations.ResetEstablishesInitialState := fun s =>
  ⟨rfl, rfl, fun _ => Vector.getElem_replicate _, rfl, resetWith_slot s.params, rfl, fun _ => Vector.getElem_replicate _,
    resetWith_pixel s.params, rfl, rfl, rfl, fun _ h => readByte_reset_font s h, fun _ h _ => readByte_reset_zero s h⟩

/-- Settles O58: the empty memory is canonical, pc is 0x200 and every slot is 0. -/
theorem resetMeetsInvariant : Obligations.ResetMeetsInvariant :=
  have hreset : ∀ p, Invariant (State.resetWith p) := fun p =>
    ⟨Memory.wf_nil p, (by decide : (0x200#16).toNat ≤ 0x10FE), fun j => by rw [resetWith_slot]; decide⟩
  ⟨hreset _, hreset⟩

/-! ### key_set -/

theorem keySet_of_lt (k : Key) (b : Bool) (s : State) : keySet k.val b s = some (s.setKey k b) := dif_pos k.isLt

theorem keySet_of_gt {n : Nat} (b : Bool) (s : State) (h : n > 15) : keySet n b s = none := dif_neg (Nat.not_lt.2 h)

/-- A key_set that succeeds wrote one key (R45). -/
theorem keySet_some {n : Nat} {b : Bool} {s t : State} (h : keySet n b s = some t) : ∃ k : Key, t = s.setKey k b := by
  rcases Nat.lt_or_ge n 16 with hn | hn
  · exact ⟨⟨n, hn⟩, (Option.some.inj ((keySet_of_lt ⟨n, hn⟩ b s).symm.trans h)).symm⟩
  · rw [keySet_of_gt b s hn] at h; cases h

theorem transact_keySet (k : Key) (b : Bool) (s : State) : transact s (.keySet k.val b) = (s.setKey k b, .done) := by
  rw [transact, keySet_of_lt]; rfl

theorem transact_keySet_of_gt {n : Nat} (b : Bool) (s : State) (h : n > 15) :
    transact s (.keySet n b) = (s, .rangeError) := by
  rw [transact, keySet_of_gt b s h]; rfl

/-! ### Mutators -/

theorem toNat_ofNat_of_lt {w n : Nat} (h : n < 2 ^ w) : (BitVec.ofNat w n).toNat = n :=
  (BitVec.toNat_ofNat n w).trans (Nat.mod_eq_of_lt h)

/-- A request in range writes its element, which reads back as the value, and nothing else (R48). -/
theorem poke_of_inRange {e : Mutable} {n : Nat} (s : State) (h : e.InRange n) :
    ∃ t, poke e n s = some t ∧ peek e.element t = some n ∧ FrameBut e.Names s t := by
  cases e with
  | pc =>
    have hn : n < 2 ^ 16 := Nat.lt_succ_of_le h
    exact ⟨_, if_pos hn, congrArg some (toNat_ofNat_of_lt hn), (frame_setPc s _).mono fun _ => List.mem_singleton.1⟩
  | idx =>
    have hn : n < 2 ^ 16 := Nat.lt_succ_of_le h
    exact ⟨_, if_pos hn, congrArg some (toNat_ofNat_of_lt hn), (frame_setIdx s _).mono fun _ => List.mem_singleton.1⟩
  | dt =>
    have hn : n < 2 ^ 8 := Nat.lt_succ_of_le h
    exact ⟨_, if_pos hn, congrArg some (toNat_ofNat_of_lt hn), (frame_setDt s _).mono fun _ => List.mem_singleton.1⟩
  | st =>
    have hn : n < 2 ^ 8 := Nat.lt_succ_of_le h
    exact ⟨_, if_pos hn, congrArg some (toNat_ofNat_of_lt hn), (frame_setSt s _).mono fun _ => List.mem_singleton.1⟩
  | sp =>
    have hn : n < 17 := Nat.lt_succ_of_le h
    exact ⟨_, dif_pos hn, rfl, (frame_withSp s ⟨n, hn⟩).mono fun _ => List.mem_singleton.1⟩
  | reg i =>
    have hi : i < 16 := Nat.lt_succ_of_le h.1
    have hn : n < 2 ^ 8 := Nat.lt_succ_of_le h.2
    refine ⟨_, dif_pos ⟨hi, hn⟩, (dif_pos hi).trans ?_,
      (frame_setReg s ⟨i, hi⟩ _).mono fun _ hp => ⟨_, rfl, List.mem_singleton.1 hp⟩⟩
    rw [State.setReg_reg_self, toNat_ofNat_of_lt hn]
  | slot j =>
    have hj : j < 16 := Nat.lt_succ_of_le h.1
    have hn : n < 2 ^ 16 := Nat.lt_succ_of_le h.2
    have hframe := frame_pushed s ⟨j, hj⟩ (BitVec.ofNat 16 n) s.sp
    refine ⟨s.pushed ⟨j, hj⟩ (BitVec.ofNat 16 n) s.sp, dif_pos ⟨hj, hn⟩, (dif_pos hj).trans ?_, fun p hp => ?_⟩
    · rw [State.pushed_slot_self, toNat_ofNat_of_lt hn]
    · by_cases hsp : p = .sp
      · rw [hsp]; rfl
      · exact hframe p fun hm => hp ⟨⟨j, hj⟩, rfl, by simpa [hsp] using hm⟩
  | mem a =>
    have ha : a < memSize := Nat.lt_succ_of_le h.1
    have hn : n < 2 ^ 8 := Nat.lt_succ_of_le h.2
    refine ⟨_, if_pos ⟨ha, hn⟩, (if_pos ha).trans ?_, (frame_writeByte s a _).mono fun _ => List.mem_singleton.1⟩
    rw [State.readByte_writeByte, if_pos rfl, toNat_ofNat_of_lt hn]

/-- A request out of range is turned away (R48): the checks are those of `Mutable.InRange`. -/
theorem poke_of_not_inRange {e : Mutable} {n : Nat} (s : State) (h : ¬ e.InRange n) : poke e n s = none := by
  cases e <;> simp only [Mutable.InRange] at h
  case reg => exact dif_neg (by omega)
  case slot => exact dif_neg (by omega)
  case sp => exact dif_neg (by omega)
  case mem => exact if_neg fun ⟨ha, hn⟩ => h ⟨Nat.le_of_lt_succ ha, Nat.le_of_lt_succ hn⟩
  all_goals exact if_neg (by omega)

/-- Settles O45: `poke` answers a state exactly on the requests in range. -/
theorem mutatorsCheckTheirRange : Obligations.MutatorsCheckTheirRange := by
  refine fun e n s => ⟨fun h => ?_, fun h => by rw [transact, poke_of_not_inRange s h]; rfl⟩
  obtain ⟨t, ht, hread, hframe⟩ := poke_of_inRange s h
  exact ⟨t, by rw [transact, ht]; rfl, hread, hframe⟩

/-! ### Reads -/

theorem transact_read_some {s : State} {e : Element} {n : Nat} (h : peek e s = some n) :
    transact s (.read e) = (s, .value n) := by
  rw [transact, h]; rfl

theorem transact_read_none {s : State} {e : Element} (h : peek e s = none) : transact s (.read e) = (s, .rangeError) := by
  rw [transact, h]; rfl

theorem toNat_eq_ite (b : Bool) : b.toNat = if b then 1 else 0 := by cases b <;> rfl

theorem transact_read_pixel (s : State) (r : Fin 32) (c : Fin 64) :
    transact s (.read (.pixel r.val c.val)) = (s, .value (if s.pixel r c then 1 else 0)) :=
  toNat_eq_ite (s.pixel r c) ▸ transact_read_some (dif_pos ⟨r.isLt, c.isLt⟩)

theorem transact_read_key (s : State) (k : Key) :
    transact s (.read (.key k.val)) = (s, .value (if s.key k then 1 else 0)) :=
  toNat_eq_ite (s.key k) ▸ transact_read_some (dif_pos k.isLt)

/-- The display output is row-major (R31, R47). -/
theorem displayElement_rowMajor (s : State) (r : Fin 32) (c : Fin 64) (h : r.val * 64 + c.val < 2048) :
    displayElement s ⟨r.val * 64 + c.val, h⟩ = s.pixel r c := by
  have hr : (⟨(r.val * 64 + c.val) / 64, by omega⟩ : Fin 32) = r := Fin.ext (by simp only; omega)
  have hc : (⟨(r.val * 64 + c.val) % 64, by omega⟩ : Fin 64) = c := Fin.ext (by simp only; omega)
  rw [displayElement, hr, hc]

/-- Settles O46: a read answers what `peek` finds, which checks the index, and leaves the state it was given. -/
theorem readsReturnTheirElement : Obligations.ReadsReturnTheirElement := fun s =>
  ⟨fun _ => rfl, fun r c h => ⟨transact_read_pixel s r c, displayElement_rowMajor s r c h⟩,
    fun i => transact_read_some (dif_pos i.isLt), fun j => transact_read_some (dif_pos j.isLt), transact_read_key s,
    fun _ ha => transact_read_some (if_pos (Nat.lt_succ_of_le ha)), rfl, rfl, rfl, rfl, rfl,
    fun _ hn => ⟨transact_read_none (dif_neg (Nat.not_lt.2 hn)), transact_read_none (dif_neg (Nat.not_lt.2 hn)),
      transact_read_none (dif_neg (Nat.not_lt.2 hn))⟩,
    fun _ ha => transact_read_none (if_neg (Nat.not_lt.2 ha)), fun _ _ h => transact_read_none (dif_neg (by omega)),
    tone s, rfl, tone_iff s⟩

/-! ### Runs -/

theorem run_cons_of_fault {s : State} {t : Transaction} (ts : List Transaction) (h : (transact s t).2.isFault = true) :
    runTransactions (t :: ts) s = ((transact s t).1, [(transact s t).2]) := by
  simp only [runTransactions, h, if_true]

theorem run_cons_of_not_fault {s : State} {t : Transaction} (ts : List Transaction) (h : (transact s t).2.isFault = false) :
    runTransactions (t :: ts) s =
      ((runTransactions ts (transact s t).1).1, (transact s t).2 :: (runTransactions ts (transact s t).1).2) := by
  simp only [runTransactions, h, Bool.false_eq_true, if_false]

theorem run_singleton (t : Transaction) (s : State) :
    runTransactions [t] s = ((transact s t).1, [(transact s t).2]) := by
  cases h : (transact s t).2.isFault with
  | true => exact run_cons_of_fault [] h
  | false => exact run_cons_of_not_fault [] h

/-- After transactions without a Fault the run goes on. -/
theorem run_append_of_no_fault (ts us : List Transaction) (s : State)
    (h : ∀ r ∈ (runTransactions ts s).2, r.isFault = false) :
    runTransactions (ts ++ us) s =
      ((runTransactions us (runTransactions ts s).1).1,
        (runTransactions ts s).2 ++ (runTransactions us (runTransactions ts s).1).2) := by
  induction ts generalizing s with
  | nil => rfl
  | cons t ts ih =>
    cases ht : (transact s t).2.isFault with
    | true =>
      rw [run_cons_of_fault ts ht] at h
      exact absurd (h _ List.mem_cons_self) (by rw [ht]; decide)
    | false =>
      rw [run_cons_of_not_fault ts ht] at h ⊢
      rw [List.cons_append, run_cons_of_not_fault (ts ++ us) ht, ih _ fun r hr => h r (List.mem_cons_of_mem _ hr)]
      rfl

/-- After transactions with a Fault nothing more is answered or changed. -/
theorem run_append_of_fault (ts us : List Transaction) (s : State)
    (h : ∃ r ∈ (runTransactions ts s).2, r.isFault = true) : runTransactions (ts ++ us) s = runTransactions ts s := by
  induction ts generalizing s with
  | nil => obtain ⟨r, hr, -⟩ := h; cases hr
  | cons t ts ih =>
    cases ht : (transact s t).2.isFault with
    | true => rw [List.cons_append, run_cons_of_fault (ts ++ us) ht, run_cons_of_fault ts ht]
    | false =>
      obtain ⟨r, hr, hf⟩ := h
      rw [run_cons_of_not_fault ts ht] at hr ⊢
      have hlater : r ∈ (runTransactions ts (transact s t).1).2 :=
        (List.mem_cons.1 hr).resolve_left fun e => by rw [e, ht] at hf; cases hf
      rw [List.cons_append, run_cons_of_not_fault (ts ++ us) ht, ih _ ⟨r, hlater, hf⟩]

theorem run_dropLast_no_fault (ts : List Transaction) (s : State) :
    ∀ r ∈ (runTransactions ts s).2.dropLast, r.isFault = false := by
  induction ts generalizing s with
  | nil => exact fun r hr => nomatch hr
  | cons t ts ih =>
    cases ht : (transact s t).2.isFault with
    | true => rw [run_cons_of_fault ts ht]; exact fun r hr => nomatch hr
    | false =>
      rw [run_cons_of_not_fault ts ht]
      intro r hr
      cases hrest : (runTransactions ts (transact s t).1).2 with
      | nil => rw [hrest] at hr; cases hr
      | cons q qs =>
        rw [hrest, List.dropLast_cons_cons, ← hrest] at hr
        rcases List.mem_cons.1 hr with rfl | hr
        · exact ht
        · exact ih _ r hr

theorem run_length_of_no_fault (ts : List Transaction) (s : State)
    (h : ∀ r ∈ (runTransactions ts s).2, r.isFault = false) : (runTransactions ts s).2.length = ts.length := by
  induction ts generalizing s with
  | nil => rfl
  | cons t ts ih =>
    cases ht : (transact s t).2.isFault with
    | true =>
      rw [run_cons_of_fault ts ht] at h
      exact absurd (h _ List.mem_cons_self) (by rw [ht]; decide)
    | false =>
      rw [run_cons_of_not_fault ts ht] at h ⊢
      rw [List.length_cons, List.length_cons, ih _ fun r hr => h r (List.mem_cons_of_mem _ hr)]

/-- Settles O56: each part by induction on the transactions. -/
theorem runEndsAtFirstFault : Obligations.RunEndsAtFirstFault :=
  ⟨fun _ => rfl, run_singleton, run_append_of_no_fault, run_append_of_fault,
    fun ts s => ⟨run_dropLast_no_fault ts s, run_length_of_no_fault ts s⟩⟩

end Sys2Proof.Machine
end

section
/-! SUPPORT. What an executed instruction may write, said once over all instructions (10_state.md R22 to R30), and the
statements that follow from it part by part. -/

namespace Sys2Proof.Machine

/-! ### The footprint of an instruction -/

/-- The parts of the state that executing an instruction in s may change. -/
def MayWrite (s : State) : Instr → Part → Prop
  | .cls, p => ∃ r c, p = .pixel r c
  | .drw _ _ _, p => p = .reg vf ∨ ∃ r c, p = .pixel r c
  | .jp _, p | .jpV0 _, p => p = .pc
  | .call _, p => p = .pc ∨ p = .sp ∨ ∃ j, p = .slot j
  | .ret, p => p = .pc ∨ p = .sp
  | .seImm x nn, p => p = .pc ∧ SkipTaken s (.seImm x nn)
  | .sneImm x nn, p => p = .pc ∧ SkipTaken s (.sneImm x nn)
  | .seReg x y, p => p = .pc ∧ SkipTaken s (.seReg x y)
  | .sneReg x y, p => p = .pc ∧ SkipTaken s (.sneReg x y)
  | .skp x, p => p = .pc ∧ SkipTaken s (.skp x)
  | .sknp x, p => p = .pc ∧ SkipTaken s (.sknp x)
  | .ldImm x _, p | .addImm x _, p | .ldReg x _, p | .orReg x _, p | .andReg x _, p | .xorReg x _, p | .ldVxDt x, p =>
    p = .reg x
  | .addReg x _, p | .sub x _, p | .shr x _, p | .subn x _, p | .shl x _, p => p = .reg x ∨ p = .reg vf
  | .rnd x _, p => p = .reg x ∨ p = .draws
  | .ldVxK x, p => (p = .pc ∧ ∀ k, s.key k = false) ∨ ((p = .reg x ∨ p = .draws) ∧ ∃ k, s.key k = true)
  | .ldVxMem x, p => ∃ r : Reg, r ≤ x ∧ p = .reg r
  | .ldI _, p | .addIVx _, p | .ldFVx _, p => p = .idx
  | .ldDtVx _, p => p = .dt
  | .ldStVx _, p => p = .st
  | .ldBVx _, p | .ldMemVx _, p => ∃ a, p = .byte a

/-! ### The instructions with a key in play -/

theorem exec_skp_cases {s t : State} {x : Reg} (h : exec (.skp x) s = .next t) :
    ∃ k : Key, (s.reg x).toNat = k.val ∧ t = s.skipIf (s.key k) := by
  rcases Nat.lt_or_ge (s.reg x).toNat 16 with hk | hk
  · rw [exec_skp_of_key (k := ⟨_, hk⟩) rfl] at h
    exact ⟨⟨_, hk⟩, rfl, (Host.Outcome.next.inj h).symm⟩
  · rw [exec_skp_of_gt hk] at h; cases h

theorem exec_sknp_cases {s t : State} {x : Reg} (h : exec (.sknp x) s = .next t) :
    ∃ k : Key, (s.reg x).toNat = k.val ∧ t = s.skipIf (!s.key k) := by
  rcases Nat.lt_or_ge (s.reg x).toNat 16 with hk | hk
  · rw [exec_sknp_of_key (k := ⟨_, hk⟩) rfl] at h
    exact ⟨⟨_, hk⟩, rfl, (Host.Outcome.next.inj h).symm⟩
  · rw [exec_sknp_of_gt hk] at h; cases h

theorem exists_held_or_none (s : State) : (∃ k, s.key k = true) ∨ ∀ k, s.key k = false := by
  rcases Classical.em (∃ k, s.key k = true) with h | h
  · exact .inl h
  · exact .inr fun k => Bool.eq_false_iff.2 fun hk => h ⟨k, hk⟩

theorem exec_ldVxK_cases {s t : State} {x : Reg} (h : exec (.ldVxK x) s = .next t) :
    ((∀ k, s.key k = false) ∧ t = s.rewind) ∨ ((∃ k, s.key k = true) ∧ ∃ b, t = (s.setReg x b).nextDraw) := by
  rcases exists_held_or_none s with hheld | hnone
  · obtain ⟨k, -, he⟩ := exec_ldVxK_of_some x hheld
    rw [he] at h
    exact .inr ⟨hheld, _, (Host.Outcome.next.inj h).symm⟩
  · rw [exec_ldVxK_of_none x hnone] at h
    exact .inl ⟨hnone, (Host.Outcome.next.inj h).symm⟩

/-! ### The stack and the loads -/

theorem exec_call_cases {s t : State} {nnn : Addr12} (h : exec (.call nnn) s = .next t) :
    ∃ (j : Fin 16) (n : Fin 17), t = (s.pushed j s.pc n).setPc (zext16 nnn) := by
  rcases Nat.lt_or_ge s.sp.val 16 with hs | hs
  · rw [exec_call_pushed nnn hs] at h
    exact ⟨_, _, (Host.Outcome.next.inj h).symm⟩
  · rw [exec_call_of_full nnn (by omega)] at h; cases h

theorem exec_ret_cases {s t : State} (h : exec .ret s = .next t) :
    ∃ (j : Fin 16) (n : Fin 17), t = (s.withSp n).setPc (s.slot j) := by
  rcases Nat.eq_zero_or_pos s.sp.val with hs | hs
  · rw [exec_ret_of_zero hs] at h; cases h
  · rw [exec_ret_withSp (j := ⟨s.sp.val - 1, by omega⟩) (by simp only; omega)] at h
    exact ⟨_, _, (Host.Outcome.next.inj h).symm⟩

theorem exec_ldVxMem_cases {s t : State} {x : Reg} (h : exec (.ldVxMem x) s = .next t) :
    s.idx.toNat + x.val ≤ 0xFFF ∧ t = s.loadRegs (regsUpTo x) := by
  rcases Nat.lt_or_ge 0xFFF (s.idx.toNat + x.val) with hs | hs
  · rw [exec_ldVxMem_of_gt hs] at h; cases h
  · rw [exec_ldVxMem_of_le hs] at h
    exact ⟨hs, (Host.Outcome.next.inj h).symm⟩

/-! ### The frame of every instruction -/

/-- A skip changes pc, and only where its condition holds. -/
theorem frame_skipIf_of_imp (s : State) {c : Bool} {taken : Prop} (h : c = true → taken) :
    FrameBut (fun p => p = .pc ∧ taken) s (s.skipIf c) := by
  cases c with
  | false => exact FrameBut.refl _ _
  | true => exact (frame_setPc s _).mono fun p hp => ⟨List.mem_singleton.1 hp, h rfl⟩

theorem frame_storeAtIdx {s t : State} {bs : List Byte} (hb : 0 < bs.length) (h : s.storeAtIdx bs = .next t) :
    FrameBut (fun p => ∃ a, p = .byte a) s t := by
  obtain ⟨-, -, rfl⟩ := storeAtIdx_cases hb h
  exact (frame_writeBytes s _ bs).mono fun _ ⟨_, _, hp⟩ => ⟨_, hp⟩

theorem frame_flag (s : State) (x : Reg) (r : Byte) (f : Bool) :
    FrameBut (fun p => p = .reg x ∨ p = .reg vf) s (s.setResultFlag x r f) :=
  (frame_setResultFlag s x r f).mono fun _ hp => by simpa using hp

theorem frame_reg (s : State) (x : Reg) (b : Byte) : FrameBut (fun p => p = .reg x) s (s.setReg x b) :=
  (frame_setReg s x b).mono fun _ => List.mem_singleton.1

theorem frame_pc (s : State) (w : Word) : FrameBut (fun p => p = .pc) s (s.setPc w) :=
  (frame_setPc s w).mono fun _ => List.mem_singleton.1

theorem frame_idx (s : State) (w : Word) : FrameBut (fun p => p = .idx) s (s.setIdx w) :=
  (frame_setIdx s w).mono fun _ => List.mem_singleton.1

theorem frame_draw (s : State) (x : Reg) (b : Byte) :
    FrameBut (fun p => p = .reg x ∨ p = .draws) s (s.setReg x b).nextDraw :=
  (frame_setReg_nextDraw s x b).mono fun _ hp => by simpa using hp

/-- An instruction that gives a next state changes no part outside its footprint. -/
theorem exec_frame {i : Instr} {s t : State} (h : exec i s = .next t) : FrameBut (MayWrite s i) s t := by
  cases i with
  | cls => cases h; exact frame_setDisp s Display.clear
  | ret =>
    obtain ⟨j, n, rfl⟩ := exec_ret_cases h
    exact (frame_ret s _ n).mono fun p hp => by simpa [MayWrite] using hp
  | jp nnn => cases h; exact frame_pc s _
  | call nnn =>
    obtain ⟨j, n, rfl⟩ := exec_call_cases h
    exact (frame_call s j _ _ n).mono fun p hp => by
      rcases (by simpa using hp : p = .pc ∨ p = .sp ∨ p = .slot j) with h | h | h
      exacts [.inl h, .inr (.inl h), .inr (.inr ⟨j, h⟩)]
  | seImm x nn => cases h; exact frame_skipIf_of_imp s beq_iff_eq.1
  | sneImm x nn => cases h; exact frame_skipIf_of_imp s bne_iff_ne.1
  | seReg x y => cases h; exact frame_skipIf_of_imp s beq_iff_eq.1
  | ldImm x nn => cases h; exact frame_reg s x _
  | addImm x nn => cases h; exact frame_reg s x _
  | ldReg x y => cases h; exact frame_reg s x _
  | orReg x y => cases h; exact frame_reg s x _
  | andReg x y => cases h; exact frame_reg s x _
  | xorReg x y => cases h; exact frame_reg s x _
  | addReg x y => cases h; exact frame_flag s x _ _
  | sub x y => cases h; exact frame_flag s x _ _
  | shr x y => cases h; exact frame_flag s x _ _
  | subn x y => cases h; exact frame_flag s x _ _
  | shl x y => cases h; exact frame_flag s x _ _
  | sneReg x y => cases h; exact frame_skipIf_of_imp s bne_iff_ne.1
  | ldI nnn => cases h; exact frame_idx s _
  | jpV0 nnn => cases h; exact frame_pc s _
  | rnd x nn => cases h; exact frame_draw s x _
  | drw x y n =>
    obtain ⟨-, rfl⟩ := exec_drw_cases h
    exact frame_drawn s x y n
  | skp x =>
    obtain ⟨k, hk, rfl⟩ := exec_skp_cases h
    exact frame_skipIf_of_imp s fun hkey => ⟨k, hk, hkey⟩
  | sknp x =>
    obtain ⟨k, hk, rfl⟩ := exec_sknp_cases h
    exact frame_skipIf_of_imp s fun hkey => ⟨k, hk, by simpa using hkey⟩
  | ldVxDt x => cases h; exact frame_reg s x _
  | ldVxK x =>
    rcases exec_ldVxK_cases h with ⟨hnone, rfl⟩ | ⟨hheld, b, rfl⟩
    · exact (frame_pc s _).mono fun _ hp => .inl ⟨hp, hnone⟩
    · exact (frame_draw s x b).mono fun _ hp => .inr ⟨hp, hheld⟩
  | ldDtVx x => cases h; exact (frame_setDt s _).mono fun _ => List.mem_singleton.1
  | ldStVx x => cases h; exact (frame_setSt s _).mono fun _ => List.mem_singleton.1
  | addIVx x => cases h; exact frame_idx s _
  | ldFVx x => cases h; exact frame_idx s _
  | ldBVx x => exact frame_storeAtIdx (by simp) h
  | ldMemVx x => exact frame_storeAtIdx (by simp) h
  | ldVxMem x =>
    obtain ⟨-, rfl⟩ := exec_ldVxMem_cases h
    exact loadRegs_frame s x

/-- A part that changed is in the footprint. -/
theorem mayWrite_of_changed {i : Instr} {s t : State} (h : exec i s = .next t) {p : Part} (hp : ¬ p.Same s t) :
    MayWrite s i p :=
  Classical.byContradiction fun hn => hp (exec_frame h p hn)

/-! ### Which instructions have a part in their footprint -/

section
variable {s : State} {i : Instr}

theorem writesRegister_of_mayWrite {r : Reg} (hr : r ≠ vf) (h : MayWrite s i (.reg r)) : WritesRegister r i := by
  cases i <;> simp_all [MayWrite, WritesRegister]

theorem writes_vf_of_mayWrite (h : MayWrite s i (.reg vf)) : WritesFlag i ∨ WritesRegister vf i := by
  cases i <;> simp_all [MayWrite, WritesRegister, WritesFlag]

theorem instr_of_mayWrite_idx (h : MayWrite s i .idx) :
    (∃ nnn, i = .ldI nnn) ∨ (∃ x, i = .addIVx x) ∨ ∃ x, i = .ldFVx x := by
  cases i <;> simp_all [MayWrite]

theorem instr_of_mayWrite_sp (h : MayWrite s i .sp) : (∃ nnn, i = .call nnn) ∨ i = .ret := by
  cases i <;> simp_all [MayWrite]

theorem instr_of_mayWrite_slot {j : Fin 16} (h : MayWrite s i (.slot j)) : ∃ nnn, i = .call nnn := by
  cases i <;> simp_all [MayWrite]

theorem instr_of_mayWrite_pixel {r : Fin 32} {c : Fin 64} (h : MayWrite s i (.pixel r c)) :
    i = .cls ∨ ∃ x y n, i = .drw x y n := by
  cases i <;> simp_all [MayWrite]

theorem instr_of_mayWrite_dt (h : MayWrite s i .dt) : ∃ x, i = .ldDtVx x := by
  cases i <;> simp_all [MayWrite]

theorem instr_of_mayWrite_st (h : MayWrite s i .st) : ∃ x, i = .ldStVx x := by
  cases i <;> simp_all [MayWrite]

theorem instr_of_mayWrite_byte {a : Nat} (h : MayWrite s i (.byte a)) : (∃ x, i = .ldBVx x) ∨ ∃ x, i = .ldMemVx x := by
  cases i <;> simp_all [MayWrite]

theorem instr_of_mayWrite_pc (h : MayWrite s i .pc) :
    (∃ nnn, i = .jp nnn) ∨ (∃ nnn, i = .call nnn) ∨ i = .ret ∨ (∃ nnn, i = .jpV0 nnn) ∨ SkipTaken s i ∨
      ((∃ x, i = .ldVxK x) ∧ ∀ k, s.key k = false) := by
  cases i <;> simp_all [MayWrite]

theorem instr_of_mayWrite_draws (h : MayWrite s i .draws) :
    (∃ x nn, i = .rnd x nn) ∨ ((∃ x, i = .ldVxK x) ∧ ∃ k, s.key k = true) := by
  cases i <;> simp_all [MayWrite]

theorem not_mayWrite_key (k : Key) : ¬ MayWrite s i (.key k) := by
  cases i <;> simp [MayWrite]

theorem not_mayWrite_params : ¬ MayWrite s i .params := by
  cases i <;> simp [MayWrite]

end

/-- Settles O54: a part that changed is in the instruction's footprint. -/
theorem onlyNamedInstructionsWrite : Obligations.OnlyNamedInstructionsWrite := by
  intro i s t h
  refine ⟨fun r hr hne => writesRegister_of_mayWrite hr (mayWrite_of_changed h (p := .reg r) hne),
    fun hne => instr_of_mayWrite_idx (mayWrite_of_changed h (p := .idx) hne), ?_,
    fun ⟨r, c, hne⟩ => instr_of_mayWrite_pixel (mayWrite_of_changed h (p := .pixel r c) hne),
    fun hne => instr_of_mayWrite_dt (mayWrite_of_changed h (p := .dt) hne),
    fun hne => instr_of_mayWrite_st (mayWrite_of_changed h (p := .st) hne),
    fun ⟨a, hne⟩ => instr_of_mayWrite_byte (mayWrite_of_changed h (p := .byte a) hne),
    fun hne => instr_of_mayWrite_pc (mayWrite_of_changed h (p := .pc) hne),
    fun hne => instr_of_mayWrite_draws (mayWrite_of_changed h (p := .draws) hne),
    fun k => exec_frame h (.key k) (not_mayWrite_key k), exec_frame h .params not_mayWrite_params⟩
  rintro (hne | ⟨j, hne⟩)
  · exact instr_of_mayWrite_sp (mayWrite_of_changed h (p := .sp) hne)
  · exact .inl (instr_of_mayWrite_slot (mayWrite_of_changed h (p := .slot j) hne))

/-! ### VF as a flag (R23) -/

theorem flagByte_zero_or_one (b : Bool) : flagByte b = 0 ∨ flagByte b = 1 := by cases b <;> decide

theorem setResultFlag_vf_zero_or_one (s : State) (x : Reg) (r : Byte) (f : Bool) :
    (s.setResultFlag x r f).reg vf = 0 ∨ (s.setResultFlag x r f).reg vf = 1 :=
  (setResultFlag_vf s x r f).symm ▸ flagByte_zero_or_one f

/-- The six flag-writing instructions leave a flag in VF, written last (D9). -/
theorem exec_flag_zero_or_one {i : Instr} {s t : State} (h : exec i s = .next t) (hi : WritesFlag i) :
    t.reg vf = 0 ∨ t.reg vf = 1 := by
  cases i with
  | addReg x y => cases h; exact setResultFlag_vf_zero_or_one s x _ _
  | sub x y => cases h; exact setResultFlag_vf_zero_or_one s x _ _
  | shr x y => cases h; exact setResultFlag_vf_zero_or_one s x _ _
  | subn x y => cases h; exact setResultFlag_vf_zero_or_one s x _ _
  | shl x y => cases h; exact setResultFlag_vf_zero_or_one s x _ _
  | drw x y n =>
    obtain ⟨-, rfl⟩ := exec_drw_cases h
    exact (drawn_vf s x y n).symm ▸ flagByte_zero_or_one _
  | _ => exact False.elim hi

/-- Settles O55: VF is in a footprint only as a flag or a destination, and a flag is written last. -/
theorem flagRegisterWriters : Obligations.FlagRegisterWriters := fun _ _ _ h =>
  ⟨fun hne => writes_vf_of_mayWrite (mayWrite_of_changed h (p := .reg vf) hne), exec_flag_zero_or_one h⟩

/-! ### The keys -/

theorem step_keeps_key {s t : State} (h : step s = .next t) (k : Key) : t.key k = s.key k := by
  obtain ⟨-, rfl | ⟨i, -, he⟩⟩ := step_next_cases h
  · rfl
  · exact exec_frame he (.key k) (not_mayWrite_key k)

/-- Settles O44: key_set is one write of a key, and no footprint has a key. -/
theorem keySetWritesOneKey : Obligations.KeySetWritesOneKey :=
  ⟨fun k b s => ⟨_, transact_keySet k b s, State.setKey_key_self s k b, frame_setKey s k b⟩,
    fun _ _ k h => step_keeps_key h k, fun _ b s h => transact_keySet_of_gt b s h⟩

/-! ### Taken skips and the waiting step -/

/-- An instruction that skips adds 2 to pc and does nothing else (R140). -/
theorem exec_of_skipTaken {s : State} {i : Instr} (h : SkipTaken s i) : exec i s = .next (s.setPc (s.pc + 2)) := by
  cases i with
  | seImm x nn => rw [exec_seImm, beq_iff_eq.2 h]; rfl
  | sneImm x nn => rw [exec_sneImm, bne_iff_ne.2 h]; rfl
  | seReg x y => rw [exec_seReg, beq_iff_eq.2 h]; rfl
  | sneReg x y => rw [exec_sneReg, bne_iff_ne.2 h]; rfl
  | skp x => obtain ⟨k, hk, hkey⟩ := h; rw [exec_skp_of_key hk, hkey]; rfl
  | sknp x => obtain ⟨k, hk, hkey⟩ := h; rw [exec_sknp_of_key hk, hkey]; rfl
  | _ => exact False.elim h

/-- The condition of a skip does not read pc. -/
theorem skipTaken_advance {s : State} {i : Instr} (h : SkipTaken s i) : SkipTaken s.advance i := by
  cases i <;> exact h

/-- Settles O18: the advance and the skip each add 2 to pc. -/
theorem takenSkipPassesOverOneWord : Obligations.TakenSkipPassesOverOneWord := by
  intro s i hpc hi htaken
  have htarget : (s.pc + 2 + 2).toNat = s.pc.toNat + 4 := by
    bv_omega
  refine ⟨_, (step_of_instr hpc hi).trans (exec_of_skipTaken (skipTaken_advance htaken)), htarget,
    FrameBut.trans (frame_advance s) (frame_setPc _ _), fun hend => step_of_bad_pc ?_⟩
  rw [State.setPc_pc, State.advance_pc, htarget]
  exact hend

theorem rewind_advance (s : State) : s.advance.rewind = s := by
  have hpc : s.pc + 2 - 2 = s.pc := BitVec.add_sub_cancel s.pc 2
  rw [State.rewind, State.advance_pc, hpc]
  rfl

/-- Settles O38: with no key held the wait rewinds what the fetch advanced. -/
theorem waitingStepChangesNothing : Obligations.WaitingStepChangesNothing := by
  intro s x hpc hi hnone
  have hexec : exec (.ldVxK x) s.advance = .next s :=
    (exec_ldVxK_of_none (s := s.advance) x hnone).trans (congrArg _ (rewind_advance s))
  exact ⟨(step_of_instr hpc hi).trans hexec, by rw [stepResult_of_instr hpc hi, hexec]⟩

end Sys2Proof.Machine
end

section
/-! SUPPORT. When a step faults (60_exceptions.md R301, R303, R306), over all instructions. -/

namespace Sys2Proof.Machine

/-- The outcome of an instruction agrees with R301's table: a next state where no kind's condition holds, or the one fault
whose condition holds. -/
def OutcomeAgrees (s : State) (i : Instr) : Prop :=
  (∃ t, exec i s = .next t ∧ ∀ k, ¬ InstrFaults s i k) ∨ ∃ k, exec i s = .fault k ∧ ∀ j, InstrFaults s i j ↔ j = k

/-- A block store ends in a next state or in exactly the fault whose condition holds (R306). -/
theorem storeAtIdx_outcome {s : State} {bs : List Byte} {n : Nat} (hlen : bs.length = n + 1) (hn : n ≤ 15) :
    (∃ t, s.storeAtIdx bs = .next t ∧ ¬ s.idx.toNat + n > 0xFFF ∧ ¬ s.idx.toNat ≤ 0x04F) ∨
    (s.storeAtIdx bs = .fault .memoryOutOfRange ∧ s.idx.toNat + n > 0xFFF ∧ ¬ s.idx.toNat ≤ 0x04F) ∨
    (s.storeAtIdx bs = .fault .fontWrite ∧ ¬ s.idx.toNat + n > 0xFFF ∧ s.idx.toNat ≤ 0x04F) := by
  rcases Nat.lt_or_ge 0xFFF (s.idx.toNat + n) with hend | hend
  · exact .inr (.inl ⟨storeAtIdx_outOfRange (by omega) (by omega), hend, by omega⟩)
  · rcases Nat.lt_or_ge 0x04F s.idx.toNat with hfont | hfont
    · exact .inl ⟨_, storeAtIdx_next (by omega) hfont, by omega, by omega⟩
    · exact .inr (.inr ⟨storeAtIdx_font (by omega) (by omega) (by omega), by omega, hfont⟩)

/-- The instructions that store n + 1 bytes at I have that outcome. -/
theorem outcomeAgrees_of_store {s : State} {i : Instr} {bs : List Byte} {n : Nat} (hexec : exec i s = s.storeAtIdx bs)
    (hlen : bs.length = n + 1) (hn : n ≤ 15)
    (hfaults : ∀ k, InstrFaults s i k ↔
      (k = .memoryOutOfRange ∧ s.idx.toNat + n > 0xFFF) ∨ (k = .fontWrite ∧ s.idx.toNat ≤ 0x04F)) :
    OutcomeAgrees s i := by
  rcases storeAtIdx_outcome hlen hn with ⟨t, ht, hend, hfont⟩ | ⟨hf, hend, hfont⟩ | ⟨hf, hend, hfont⟩
  · exact .inl ⟨t, hexec.trans ht, fun k => by simp [hfaults, hend, hfont]⟩
  · exact .inr ⟨_, hexec.trans hf, fun k => by simp [hfaults, hend, hfont]⟩
  · exact .inr ⟨_, hexec.trans hf, fun k => by simp [hfaults, hend, hfont]⟩

/-- A key number is one of the sixteen, or above 0xF (R262). -/
theorem key_or_gt (b : Byte) : (∃ k : Key, b.toNat = k.val) ∨ b.toNat > 0xF := by
  rcases Nat.lt_or_ge b.toNat 16 with h | h
  · exact .inl ⟨⟨_, h⟩, rfl⟩
  · exact .inr h

theorem exec_outcomeAgrees (s : State) (i : Instr) : OutcomeAgrees s i := by
  cases i with
  | call nnn =>
    rcases Nat.lt_or_ge s.sp.val 16 with h | h
    · exact .inl ⟨_, exec_call_pushed nnn h, fun k hk => absurd hk.2 (by omega)⟩
    · exact .inr ⟨_, exec_call_of_full nnn (by omega), fun k => and_iff_left (by omega)⟩
  | ret =>
    rcases Nat.eq_zero_or_pos s.sp.val with h | h
    · exact .inr ⟨_, exec_ret_of_zero h, fun k => and_iff_left h⟩
    · exact .inl ⟨_, exec_ret_withSp (j := ⟨s.sp.val - 1, by omega⟩) (by simp only; omega),
        fun k hk => absurd hk.2 (by omega)⟩
  | drw x y n =>
    by_cases h : SpriteInMemory s n
    · exact .inl ⟨_, exec_drw_of_inMemory x y h, fun k ⟨_, hn, hend⟩ => by unfold SpriteInMemory at h; omega⟩
    · exact .inr ⟨_, exec_drw_of_not_inMemory x y h, fun k => and_iff_left (by unfold SpriteInMemory at h; omega)⟩
  | skp x =>
    rcases key_or_gt (s.reg x) with ⟨q, hq⟩ | h
    · exact .inl ⟨_, exec_skp_of_key hq, fun k hk => absurd hk.2 (by omega)⟩
    · exact .inr ⟨_, exec_skp_of_gt h, fun k => and_iff_left h⟩
  | sknp x =>
    rcases key_or_gt (s.reg x) with ⟨q, hq⟩ | h
    · exact .inl ⟨_, exec_sknp_of_key hq, fun k hk => absurd hk.2 (by omega)⟩
    · exact .inr ⟨_, exec_sknp_of_gt h, fun k => and_iff_left h⟩
  | ldVxK x =>
    rcases exists_held_or_none s with h | h
    · obtain ⟨k, -, he⟩ := exec_ldVxK_of_some x h
      exact .inl ⟨_, he, fun _ => id⟩
    · exact .inl ⟨_, exec_ldVxK_of_none x h, fun _ => id⟩
  | ldBVx x => exact outcomeAgrees_of_store (exec_ldBVx x s) (length_decimalDigits _) (by omega) fun _ => Iff.rfl
  | ldMemVx x =>
    exact outcomeAgrees_of_store (exec_ldMemVx x s) (length_storedRegs s x) (Nat.le_of_lt_succ x.isLt) fun _ => Iff.rfl
  | ldVxMem x =>
    rcases Nat.lt_or_ge 0xFFF (s.idx.toNat + x.val) with h | h
    · exact .inr ⟨_, exec_ldVxMem_of_gt h, fun k => and_iff_left h⟩
    · exact .inl ⟨_, exec_ldVxMem_of_le h, fun k hk => absurd hk.2 (by omega)⟩
  | _ => exact .inl ⟨_, rfl, fun _ => id⟩

theorem exec_fault_iff (s : State) (i : Instr) (k : Fault) : exec i s = .fault k ↔ InstrFaults s i k := by
  rcases exec_outcomeAgrees s i with ⟨t, ht, hno⟩ | ⟨f, hf, hiff⟩
  · rw [ht]
    exact iff_of_false (fun e => nomatch e) (hno k)
  · rw [hf, hiff, Host.Outcome.fault.injEq, eq_comm]

theorem exec_ne_refused (i : Instr) (s : State) (r : Refusal) : exec i s ≠ .refused r := by
  rcases exec_outcomeAgrees s i with ⟨t, h, -⟩ | ⟨k, h, -⟩ <;> (rw [h]; exact fun e => nomatch e)

/-- Settles O51: each instruction's outcome is one of R301's table, which has no refusal. -/
theorem noInstructionIsRefused : Obligations.NoInstructionIsRefused := by
  refine fun i s r => ⟨exec_ne_refused i s r, ?_⟩
  rcases step_cases s with ⟨-, hs⟩ | ⟨-, -, hs⟩ | ⟨-, j, -, hs⟩ <;> rw [hs]
  · exact fun e => nomatch e
  · exact fun e => nomatch e
  · exact exec_ne_refused j s.advance r

/-- An instruction's fault condition reads SP, I and the registers only. -/
theorem instrFaults_congr {s t : State} (hsp : t.sp = s.sp) (hidx : t.idx = s.idx) (hreg : ∀ r, t.reg r = s.reg r)
    (i : Instr) (k : Fault) : InstrFaults t i k ↔ InstrFaults s i k := by
  cases i <;> simp only [InstrFaults, hsp, hidx, hreg]

/-- Settles O52: the three ways a step can go, each against the table. -/
theorem stepFaultsExactlyWhenSpecified : Obligations.StepFaultsExactlyWhenSpecified := by
  intro s k
  unfold StepFaults
  rcases step_cases s with ⟨hpc, hs⟩ | ⟨hpc, hu, hs⟩ | ⟨hpc, i, hi, hs⟩
  · have hle : ¬ s.pc.toNat ≤ 0xFFE := Nat.not_le.2 hpc
    simp only [hs, hpc, hle, true_and, false_and, or_false, Host.Outcome.fault.injEq, eq_comm]
  · have hgt : ¬ s.pc.toNat > 0xFFE := Nat.not_lt.2 hpc
    simp [hs, hu, hgt]
  · have hgt : ¬ s.pc.toNat > 0xFFE := Nat.not_lt.2 hpc
    rw [hs, exec_fault_iff, instrFaults_congr (t := s.advance) (s := s) rfl rfl (fun _ => rfl)]
    simp [hpc, hgt, hi]

/-- A step's fault condition reads pc, SP, I, the registers, the parameters and the word at pc only. -/
theorem stepFaults_congr {s t : State} (hpc : t.pc = s.pc) (hsp : t.sp = s.sp) (hidx : t.idx = s.idx)
    (hreg : ∀ r, t.reg r = s.reg r) (hparams : t.params = s.params)
    (hword : t.fetch16 t.pc.toNat = s.fetch16 s.pc.toNat) (k : Fault) : StepFaults t k ↔ StepFaults s k := by
  rw [hpc] at hword
  simp only [StepFaults, hword, hparams, instrFaults_congr hsp hidx hreg, hpc]

/-- The same fault from a state that agrees where fault conditions look. -/
theorem step_fault_congr {s t : State} {k : Fault} (h : step s = .fault k) (hpc : t.pc = s.pc) (hsp : t.sp = s.sp)
    (hidx : t.idx = s.idx) (hreg : ∀ r, t.reg r = s.reg r) (hparams : t.params = s.params)
    (hword : t.fetch16 t.pc.toNat = s.fetch16 s.pc.toNat) : step t = .fault k :=
  (stepFaultsExactlyWhenSpecified t k).2
    ((stepFaults_congr hpc hsp hidx hreg hparams hword k).2 ((stepFaultsExactlyWhenSpecified s k).1 h))

/-- Settles O53: a tick and a key change touch nothing that a fault condition reads. -/
theorem faultRepeatsUntilStateChanges : Obligations.FaultRepeatsUntilStateChanges := by
  refine fun s t k h => ⟨step_fault_congr h, step_fault_congr h rfl rfl rfl (fun _ => rfl) rfl rfl, fun n b u hu => ?_⟩
  obtain ⟨q, rfl⟩ := keySet_some hu
  exact step_fault_congr h rfl rfl rfl (fun _ => rfl) rfl rfl

end Sys2Proof.Machine
end

section
/-! SUPPORT. The invariant of contract runs (10_state.md R26, 20_memory.md R66, 70_reset_and_hazards.md R340): each step keeps
memory canonical, the font, and the bounds of pc and of the stack slots. -/

namespace Sys2Proof.Machine

/-! ### Memory -/

/-- What `exec_memory` says of an instruction, said of a step (R64, R66). -/
theorem step_memory {s t : State} (h : step s = .next t) :
    t.params = s.params ∧ (t.mem = s.mem ∨ ∃ bs : List Byte, s.idx.toNat + bs.length ≤ 0x1000 ∧ 0x50 ≤ s.idx.toNat ∧
      t.mem = Memory.writeAll s.params s.mem s.idx.toNat bs) := by
  obtain ⟨-, rfl | ⟨i, -, he⟩⟩ := step_next_cases h
  · exact ⟨rfl, .inl rfl⟩
  · exact exec_memory (s := s.advance) he

/-- Settles O50: a step's store starts above the font. -/
theorem fontAreaNeverChanges : Obligations.FontAreaNeverChanges := by
  intro s t a h ha
  obtain ⟨hparams, hmem | ⟨bs, -, hfont, hmem⟩⟩ := step_memory h
  · rw [State.readByte, hparams, hmem]
    rfl
  · have hread : t.readByte a = (s.writeBytes s.idx.toNat bs).readByte a := by
      rw [State.readByte, hparams, hmem]
      rfl
    rw [hread, State.readByte_writeBytes_of_not_mem s (by omega)]

theorem step_keeps_canonical {s t : State} (hs : MemoryCanonical s) (h : step s = .next t) : MemoryCanonical t := by
  unfold MemoryCanonical at hs ⊢
  obtain ⟨hparams, hmem | ⟨bs, hend, -, hmem⟩⟩ := step_memory h
  · rw [hparams, hmem]
    exact hs
  · rw [hparams, hmem]
    exact Memory.wf_writeAll s.params hs bs hend

/-! ### pc and the stack slots -/

/-- On entry to an instruction pc is a fetched address plus 2, and every slot is a pc that was once that. -/
structure EntryBounded (s : State) : Prop where
  two_le_pc : 2 ≤ s.pc.toNat
  pc_le : s.pc.toNat ≤ 0x1000
  slot_le : ∀ j, (s.slot j).toNat ≤ 0x1000

theorem entryBounded_advance {s : State} (hs : ControlBounded s) (hpc : s.pc.toNat ≤ 0xFFE) : EntryBounded s.advance := by
  have hnext : s.advance.pc.toNat = s.pc.toNat + 2 := advance_pc_toNat hpc
  exact ⟨by omega, by omega, hs.2⟩

/-- The targets R26 bounds: a return address, a jump's 12-bit target and V0's offset on it, a skip, a wait. -/
theorem exec_pc_le {i : Instr} {s t : State} (hs : EntryBounded s) (h : exec i s = .next t) : t.pc.toNat ≤ 0x10FE := by
  obtain ⟨hlow, hpc, hslot⟩ := hs
  by_cases hsame : t.pc = s.pc
  · rw [hsame]
    omega
  · rcases instr_of_mayWrite_pc (mayWrite_of_changed h (p := .pc) hsame) with
      ⟨nnn, rfl⟩ | ⟨nnn, rfl⟩ | rfl | ⟨nnn, rfl⟩ | htaken | ⟨⟨x, rfl⟩, hnone⟩
    · cases h
      have := nnn.isLt
      rw [State.setPc_pc, zext16_toNat]
      omega
    · obtain ⟨j, n, rfl⟩ := exec_call_cases h
      have := nnn.isLt
      rw [State.setPc_pc, zext16_toNat]
      omega
    · obtain ⟨j, n, rfl⟩ := exec_ret_cases h
      exact (hslot j).trans (by decide)
    · cases h
      have := nnn.isLt
      have := (s.reg 0).isLt
      rw [State.setPc_pc, jpV0_target_toNat]
      omega
    · rw [exec_of_skipTaken htaken] at h
      cases h
      rw [State.setPc_pc]
      bv_omega
    · rw [exec_ldVxK_of_none x hnone] at h
      cases h
      rw [State.rewind_pc]
      bv_omega

/-- Only a call writes a slot, and it writes the pc it was entered with. -/
theorem exec_slot_le {i : Instr} {s t : State} (hs : EntryBounded s) (h : exec i s = .next t) (j : Fin 16) :
    (t.slot j).toNat ≤ 0x1000 := by
  by_cases hsame : t.slot j = s.slot j
  · rw [hsame]
    exact hs.slot_le j
  · obtain ⟨nnn, rfl⟩ := instr_of_mayWrite_slot (mayWrite_of_changed h (p := .slot j) hsame)
    obtain ⟨q, n, rfl⟩ := exec_call_cases h
    by_cases hj : j = q
    · rw [hj, called_slot]
      exact hs.pc_le
    · exact absurd (State.pushed_slot_ne s s.pc n hj) hsame

theorem step_keeps_controlBounded {s t : State} (hs : ControlBounded s) (h : step s = .next t) : ControlBounded t := by
  obtain ⟨hpc, ht⟩ := step_next_cases h
  have hentry := entryBounded_advance hs hpc
  rcases ht with rfl | ⟨i, -, he⟩
  · exact ⟨hentry.pc_le.trans (by decide), hentry.slot_le⟩
  · exact ⟨exec_pc_le hentry he, exec_slot_le hentry he⟩

/-- Settles O57: memory and the control state, each kept on its own. -/
theorem stepKeepsInvariant : Obligations.StepKeepsInvariant := fun _ _ ⟨hmem, hcontrol⟩ h =>
  ⟨step_keeps_canonical hmem h, step_keeps_controlBounded hcontrol h⟩

/-! ### Contract runs -/

/-- The font area holds P_FONT (R66). -/
def HoldsFont (s : State) : Prop := ∀ (a : Nat) (h : a < 80), s.readByte a = s.params.font[a]

theorem step_keeps_font {s t : State} (hs : HoldsFont s) (h : step s = .next t) : HoldsFont t := fun a ha => by
  rw [fontAreaNeverChanges s t a h ha, hs a ha]
  simp only [(step_memory h).1]

theorem resetPort_invariant (s : State) : Invariant (resetPort s) := resetMeetsInvariant.2 s.params

/-- A load starts at 0x200, above the font, and its ROM ends inside memory (R132). -/
theorem load_keeps_invariant {rom : List Byte} {s t : State} (hs : Invariant s) (h : load rom s = some t) : Invariant t := by
  obtain ⟨hlen, rfl⟩ := load_some h
  exact ⟨Memory.wf_writeAll s.params hs.1 rom (Nat.add_le_add_left hlen 0x200), hs.2⟩

theorem load_keeps_font {rom : List Byte} {s t : State} (hs : HoldsFont s) (h : load rom s = some t) : HoldsFont t := by
  obtain ⟨-, rfl⟩ := load_some h
  intro a ha
  have hbelow : ¬ (0x200 ≤ a ∧ a < 0x200 + rom.length) := by omega
  exact (State.readByte_writeBytes_of_not_mem s hbelow).trans (hs a ha)

/-- Settles O59: by induction on how the state was reached. -/
theorem contractRunsKeepInvariantAndFont : Obligations.ContractRunsKeepInvariantAndFont := by
  intro s hreach
  change Invariant s ∧ HoldsFont s
  induction hreach with
  | reset p => exact ⟨resetMeetsInvariant.2 p, fun _ ha => readByte_reset_font (State.resetWith p) ha⟩
  | @resetAgain s _ _ => exact ⟨resetPort_invariant s, fun _ ha => readByte_reset_font s ha⟩
  | load rom _ hload ih => exact ⟨load_keeps_invariant ih.1 hload, load_keeps_font ih.2 hload⟩
  | step _ hstep ih => exact ⟨stepKeepsInvariant _ _ ih.1 hstep, step_keeps_font ih.2 hstep⟩
  | tick _ ih => exact ih
  | keySet k b _ hkey ih =>
    obtain ⟨q, rfl⟩ := keySet_some hkey
    exact ih

end Sys2Proof.Machine
end
